-- ==== Sys2Proof/Word.lean ====
section
/-! DEFINITION. The widths of the CHIP-8 core (spec/00_scope.md R5, R7): everything is unsigned. -/

namespace Sys2Proof

/-- An 8-bit value: a general register, a timer, a byte of memory (R5 `REG_W`, `TIMER_W`). -/
abbrev Byte := BitVec 8

/-- A 16-bit value: an instruction word, `pc`, `I`, a stack slot (R5 `PC_W`, `I_W`; R26). -/
abbrev Word := BitVec 16

/-- A 4-bit field: a register number, a key number, the row count of DXYN (R71). -/
abbrev Nibble := BitVec 4

/-- A 12-bit address immediate, the field `NNN` (R71). -/
abbrev Addr12 := BitVec 12

end Sys2Proof
end

