-- ==== Sys2Proof/Syntax.lean ====
section
/-! DEFINITION. The instructions: one constructor for each row of spec/opcode_table.json (30_encoding.md R76, R77). A field the
decoder ignores (R75) is kept, so that an instruction and its word determine each other. -/

namespace Sys2Proof

/-- An instruction of the core, with the fields of its word (R71). `x` and `y` are register numbers, not values. -/
inductive Instr where
  /-- 00E0, clear the frame buffer; bits 11:8 are ignored. -/
  | cls (ignored : Nibble)
  /-- 00EE, return from subroutine; bits 11:8 are ignored. -/
  | ret (ignored : Nibble)
  /-- 1NNN, jump. -/
  | jp (nnn : Addr12)
  /-- 2NNN, call subroutine. -/
  | call (nnn : Addr12)
  /-- 3XNN, skip if register equals immediate. -/
  | seImm (x : Nibble) (nn : Byte)
  /-- 4XNN, skip if register differs from immediate. -/
  | sneImm (x : Nibble) (nn : Byte)
  /-- 5XY_, skip if registers are equal; bits 3:0 are ignored. -/
  | seReg (x y ignored : Nibble)
  /-- 6XNN, load immediate. -/
  | ldImm (x : Nibble) (nn : Byte)
  /-- 7XNN, add immediate. -/
  | addImm (x : Nibble) (nn : Byte)
  /-- 8XY0, move. -/
  | ldReg (x y : Nibble)
  /-- 8XY1, bitwise or. -/
  | orReg (x y : Nibble)
  /-- 8XY2, bitwise and. -/
  | andReg (x y : Nibble)
  /-- 8XY3, bitwise exclusive or. -/
  | xorReg (x y : Nibble)
  /-- 8XY4, add with carry out. -/
  | addReg (x y : Nibble)
  /-- 8XY5, subtract Y from X. -/
  | subReg (x y : Nibble)
  /-- 8XY6, shift right by one, source Y. -/
  | shr (x y : Nibble)
  /-- 8XY7, subtract X from Y. -/
  | subnReg (x y : Nibble)
  /-- 8XYE, shift left by one, source Y. -/
  | shl (x y : Nibble)
  /-- 9XY_, skip if registers differ; bits 3:0 are ignored. -/
  | sneReg (x y ignored : Nibble)
  /-- ANNN, load the address register. -/
  | ldI (nnn : Addr12)
  /-- BNNN, jump with offset V[0]. -/
  | jpV0 (nnn : Addr12)
  /-- CXNN, random byte under mask. -/
  | rnd (x : Nibble) (nn : Byte)
  /-- DXYN, draw a sprite. -/
  | drw (x y n : Nibble)
  /-- EX9E, skip if key pressed. -/
  | skp (x : Nibble)
  /-- EXA1, skip if key not pressed. -/
  | sknp (x : Nibble)
  /-- FX07, read the delay timer. -/
  | ldVxDt (x : Nibble)
  /-- FX0A, wait for a key press and release. -/
  | ldVxK (x : Nibble)
  /-- FX15, set the delay timer. -/
  | ldDtVx (x : Nibble)
  /-- FX18, set the sound timer. -/
  | ldStVx (x : Nibble)
  /-- FX1E, add register to I. -/
  | addI (x : Nibble)
  /-- FX29, point I at a font glyph. -/
  | ldF (x : Nibble)
  /-- FX33, store binary-coded decimal. -/
  | ldB (x : Nibble)
  /-- FX55, store registers V[0] to V[X]. -/
  | stRegs (x : Nibble)
  /-- FX65, load registers V[0] to V[X]. -/
  | ldRegs (x : Nibble)
  /-- Any word that no row matches (R77), with the word itself. -/
  | undefined (w : Word)
deriving DecidableEq, Repr

/-- The name of an instruction in spec/opcode_table.json, its row's hex pattern. -/
def Instr.mnemonic : Instr → String
  | .cls _ => "00E0"
  | .ret _ => "00EE"
  | .jp _ => "1NNN"
  | .call _ => "2NNN"
  | .seImm _ _ => "3XNN"
  | .sneImm _ _ => "4XNN"
  | .seReg _ _ _ => "5XY_"
  | .ldImm _ _ => "6XNN"
  | .addImm _ _ => "7XNN"
  | .ldReg _ _ => "8XY0"
  | .orReg _ _ => "8XY1"
  | .andReg _ _ => "8XY2"
  | .xorReg _ _ => "8XY3"
  | .addReg _ _ => "8XY4"
  | .subReg _ _ => "8XY5"
  | .shr _ _ => "8XY6"
  | .subnReg _ _ => "8XY7"
  | .shl _ _ => "8XYE"
  | .sneReg _ _ _ => "9XY_"
  | .ldI _ => "ANNN"
  | .jpV0 _ => "BNNN"
  | .rnd _ _ => "CXNN"
  | .drw _ _ _ => "DXYN"
  | .skp _ => "EX9E"
  | .sknp _ => "EXA1"
  | .ldVxDt _ => "FX07"
  | .ldVxK _ => "FX0A"
  | .ldDtVx _ => "FX15"
  | .ldStVx _ => "FX18"
  | .addI _ => "FX1E"
  | .ldF _ => "FX29"
  | .ldB _ => "FX33"
  | .stRegs _ => "FX55"
  | .ldRegs _ => "FX65"
  | .undefined _ => "UNDEFINED"

end Sys2Proof
end

