-- ==== Sys2Proof/WellFormed.lean ====
section
/-! DEFINITION. The opcode map of spec/30_encoding.md R76 as data, and when an instruction term is well formed. The widths of the
fields are in their types; the one thing left to check is that the word of an `undefined` is matched by no row (R77). -/

namespace Sys2Proof

/-- One row of the opcode map R76: a word `w` selects it when `w &&& mask = key`. -/
structure OpRow where
  /-- The row's hex pattern, as spec/opcode_table.json spells it. -/
  name : String
  /-- The bits the decoder looks at. -/
  mask : Word
  /-- What those bits must be (the column `match`). -/
  key : Word
deriving DecidableEq, Repr

/-- The row matches the word. -/
def OpRow.matchesWord (r : OpRow) (w : Word) : Bool := w &&& r.mask == r.key

/-- The 34 rows of R76, in the table's order. -/
def opcodeRows : List OpRow := [
  ⟨"00E0", 0xF0FF, 0x00E0⟩,
  ⟨"00EE", 0xF0FF, 0x00EE⟩,
  ⟨"1NNN", 0xF000, 0x1000⟩,
  ⟨"2NNN", 0xF000, 0x2000⟩,
  ⟨"3XNN", 0xF000, 0x3000⟩,
  ⟨"4XNN", 0xF000, 0x4000⟩,
  ⟨"5XY_", 0xF000, 0x5000⟩,
  ⟨"6XNN", 0xF000, 0x6000⟩,
  ⟨"7XNN", 0xF000, 0x7000⟩,
  ⟨"8XY0", 0xF00F, 0x8000⟩,
  ⟨"8XY1", 0xF00F, 0x8001⟩,
  ⟨"8XY2", 0xF00F, 0x8002⟩,
  ⟨"8XY3", 0xF00F, 0x8003⟩,
  ⟨"8XY4", 0xF00F, 0x8004⟩,
  ⟨"8XY5", 0xF00F, 0x8005⟩,
  ⟨"8XY6", 0xF00F, 0x8006⟩,
  ⟨"8XY7", 0xF00F, 0x8007⟩] ++ [
  ⟨"8XYE", 0xF00F, 0x800E⟩,
  ⟨"9XY_", 0xF000, 0x9000⟩,
  ⟨"ANNN", 0xF000, 0xA000⟩,
  ⟨"BNNN", 0xF000, 0xB000⟩,
  ⟨"CXNN", 0xF000, 0xC000⟩,
  ⟨"DXYN", 0xF000, 0xD000⟩,
  ⟨"EX9E", 0xF0FF, 0xE09E⟩,
  ⟨"EXA1", 0xF0FF, 0xE0A1⟩,
  ⟨"FX07", 0xF0FF, 0xF007⟩,
  ⟨"FX0A", 0xF0FF, 0xF00A⟩,
  ⟨"FX15", 0xF0FF, 0xF015⟩,
  ⟨"FX18", 0xF0FF, 0xF018⟩,
  ⟨"FX1E", 0xF0FF, 0xF01E⟩,
  ⟨"FX29", 0xF0FF, 0xF029⟩,
  ⟨"FX33", 0xF0FF, 0xF033⟩,
  ⟨"FX55", 0xF0FF, 0xF055⟩,
  ⟨"FX65", 0xF0FF, 0xF065⟩]

/-- Some row of R76 matches the word: it is a defined encoding. -/
def definedWord (w : Word) : Bool := opcodeRows.any (fun r => r.matchesWord w)

/-- An instruction is well formed: the word of `undefined` is one of the undefined encodings of R77. -/
def Instr.wf : Instr → Bool
  | .undefined w => !definedWord w
  | .cls _ | .ret _ | .jp _ | .call _ | .seImm _ _ | .sneImm _ _ | .seReg _ _ _ | .ldImm _ _ | .addImm _ _
  | .ldReg _ _ | .orReg _ _ | .andReg _ _ | .xorReg _ _ | .addReg _ _ | .subReg _ _ | .shr _ _ | .subnReg _ _
  | .shl _ _ | .sneReg _ _ _ | .ldI _ | .jpV0 _ | .rnd _ _ | .drw _ _ _ | .skp _ | .sknp _ | .ldVxDt _
  | .ldVxK _ | .ldDtVx _ | .ldStVx _ | .addI _ | .ldF _ | .ldB _ | .stRegs _ | .ldRegs _ => true

end Sys2Proof
end

