-- ==== Sys2Proof/Decode.lean ====
section
/-! DEFINITION. The decoder of spec/30_encoding.md R71 to R77, total on any bytes, and the encoder written from the same tables. -/

namespace Sys2Proof

/-- `op` = w[15:12], the primary dispatch key (R71). -/
def fieldOp (w : Word) : Nibble := w.extractLsb' 12 4
/-- `X` = w[11:8] (R71). -/
def fieldX (w : Word) : Nibble := w.extractLsb' 8 4
/-- `Y` = w[7:4] (R71). -/
def fieldY (w : Word) : Nibble := w.extractLsb' 4 4
/-- `N` = w[3:0] (R71). -/
def fieldN (w : Word) : Nibble := w.extractLsb' 0 4
/-- `NN` = w[7:0] (R71). -/
def fieldNN (w : Word) : Byte := w.extractLsb' 0 8
/-- `NNN` = w[11:0] (R71). -/
def fieldNNN (w : Word) : Addr12 := w.extractLsb' 0 12

/-- Group 0x0, keyed by NN; the X nibble is ignored (R74, R75). -/
def decodeGroup0 (w : Word) : Instr :=
  match (fieldNN w).toNat with
  | 0xE0 => .cls (fieldX w)
  | 0xEE => .ret (fieldX w)
  | _ => .undefined w

/-- Group 0x8, keyed by N (R74). -/
def decodeGroup8 (w : Word) : Instr :=
  match (fieldN w).toNat with
  | 0x0 => .ldReg (fieldX w) (fieldY w)
  | 0x1 => .orReg (fieldX w) (fieldY w)
  | 0x2 => .andReg (fieldX w) (fieldY w)
  | 0x3 => .xorReg (fieldX w) (fieldY w)
  | 0x4 => .addReg (fieldX w) (fieldY w)
  | 0x5 => .subReg (fieldX w) (fieldY w)
  | 0x6 => .shr (fieldX w) (fieldY w)
  | 0x7 => .subnReg (fieldX w) (fieldY w)
  | 0xE => .shl (fieldX w) (fieldY w)
  | _ => .undefined w

/-- Group 0xE, keyed by NN (R74). -/
def decodeGroupE (w : Word) : Instr :=
  match (fieldNN w).toNat with
  | 0x9E => .skp (fieldX w)
  | 0xA1 => .sknp (fieldX w)
  | _ => .undefined w

/-- Group 0xF, keyed by NN (R74). -/
def decodeGroupF (w : Word) : Instr :=
  match (fieldNN w).toNat with
  | 0x07 => .ldVxDt (fieldX w)
  | 0x0A => .ldVxK (fieldX w)
  | 0x15 => .ldDtVx (fieldX w)
  | 0x18 => .ldStVx (fieldX w)
  | 0x1E => .addI (fieldX w)
  | 0x29 => .ldF (fieldX w)
  | 0x33 => .ldB (fieldX w)
  | 0x55 => .stRegs (fieldX w)
  | 0x65 => .ldRegs (fieldX w)
  | _ => .undefined w

/-- The decoder: a total function of the 16 bits that dispatches on `op` first and on a sub-key in the groups 0x0, 0x8, 0xE and
0xF (R74). A word that matches no row is `undefined` (R77). -/
def decodeWord (w : Word) : Instr :=
  match (fieldOp w).toNat with
  | 0x0 => decodeGroup0 w
  | 0x1 => .jp (fieldNNN w)
  | 0x2 => .call (fieldNNN w)
  | 0x3 => .seImm (fieldX w) (fieldNN w)
  | 0x4 => .sneImm (fieldX w) (fieldNN w)
  | 0x5 => .seReg (fieldX w) (fieldY w) (fieldN w)
  | 0x6 => .ldImm (fieldX w) (fieldNN w)
  | 0x7 => .addImm (fieldX w) (fieldNN w)
  | 0x8 => decodeGroup8 w
  | 0x9 => .sneReg (fieldX w) (fieldY w) (fieldN w)
  | 0xA => .ldI (fieldNNN w)
  | 0xB => .jpV0 (fieldNNN w)
  | 0xC => .rnd (fieldX w) (fieldNN w)
  | 0xD => .drw (fieldX w) (fieldY w) (fieldN w)
  | 0xE => decodeGroupE w
  | _ => decodeGroupF w

/-- Why a list of bytes is no instruction. -/
inductive DecodeError where
  /-- Fewer than the two bytes every instruction has (R70). Raised by `decode`; safe: a fetch always brings two. -/
  | truncated
deriving DecidableEq, Repr

/-- The word of two bytes, the byte at the lower address high (R53). -/
def wordOfBytes (hi lo : Byte) : Word := hi ++ lo

/-- The instruction that a list of bytes begins with, and the bytes after it (R70). -/
def decode : List Byte → Except DecodeError (Instr × List Byte)
  | hi :: lo :: rest => .ok (decodeWord (wordOfBytes hi lo), rest)
  | _ => .error .truncated

/-- Format RR and its relatives: four nibbles, high to low (R72). -/
def packNibbles (a b c d : Nibble) : Word := a ++ b ++ c ++ d
/-- Formats RI and RK: op, X, NN (R72). -/
def packByte (op x : Nibble) (nn : Byte) : Word := op ++ x ++ nn
/-- Format A: op, NNN (R72). -/
def packAddr (op : Nibble) (nnn : Addr12) : Word := op ++ nnn

/-- The word of an instruction, from the formats of R72 and the columns `match` of R76. -/
def encode : Instr → Word
  | .cls g => packByte 0x0 g 0xE0
  | .ret g => packByte 0x0 g 0xEE
  | .jp nnn => packAddr 0x1 nnn
  | .call nnn => packAddr 0x2 nnn
  | .seImm x nn => packByte 0x3 x nn
  | .sneImm x nn => packByte 0x4 x nn
  | .seReg x y g => packNibbles 0x5 x y g
  | .ldImm x nn => packByte 0x6 x nn
  | .addImm x nn => packByte 0x7 x nn
  | .ldReg x y => packNibbles 0x8 x y 0x0
  | .orReg x y => packNibbles 0x8 x y 0x1
  | .andReg x y => packNibbles 0x8 x y 0x2
  | .xorReg x y => packNibbles 0x8 x y 0x3
  | .addReg x y => packNibbles 0x8 x y 0x4
  | .subReg x y => packNibbles 0x8 x y 0x5
  | .shr x y => packNibbles 0x8 x y 0x6
  | .subnReg x y => packNibbles 0x8 x y 0x7
  | .shl x y => packNibbles 0x8 x y 0xE
  | .sneReg x y g => packNibbles 0x9 x y g
  | .ldI nnn => packAddr 0xA nnn
  | .jpV0 nnn => packAddr 0xB nnn
  | .rnd x nn => packByte 0xC x nn
  | .drw x y n => packNibbles 0xD x y n
  | .skp x => packByte 0xE x 0x9E
  | .sknp x => packByte 0xE x 0xA1
  | .ldVxDt x => packByte 0xF x 0x07
  | .ldVxK x => packByte 0xF x 0x0A
  | .ldDtVx x => packByte 0xF x 0x15
  | .ldStVx x => packByte 0xF x 0x18
  | .addI x => packByte 0xF x 0x1E
  | .ldF x => packByte 0xF x 0x29
  | .ldB x => packByte 0xF x 0x33
  | .stRegs x => packByte 0xF x 0x55
  | .ldRegs x => packByte 0xF x 0x65
  | .undefined w => w

/-- The high byte of a word, the one at the lower address (R53). -/
def highByte (w : Word) : Byte := w.extractLsb' 8 8
/-- The low byte of a word, the one at the higher address (R53). -/
def lowByte (w : Word) : Byte := w.extractLsb' 0 8

/-- The bytes of an instruction as memory holds them, ascending addresses (R54). -/
def encodeBytes (i : Instr) : List Byte := [highByte (encode i), lowByte (encode i)]

/-- The 16-bit word that a number of `nbits` bits stands for, the bits above `nbits` zero. -/
def tableWord (nbits w : Nat) : Word := BitVec.ofNat 16 (w % 2 ^ nbits)

/-- The instruction the decoder reads from an instruction whose bits are `w`, numbered as spec/opcode_table.json numbers them:
one 16-bit word, its high byte at the lower address (R53, R70). There is no longer instruction. -/
def decodeTableWord (nbits w : Nat) : Option Instr :=
  if nbits ≤ 16 then
    match decode [highByte (tableWord nbits w), lowByte (tableWord nbits w)] with
    | .ok (i, _) => some i
    | .error _ => none
  else none

end Sys2Proof
end

