-- ==== Sys2Proof/Config.lean ====
section
/-! DEFINITION. What is fixed for a machine: the constants of spec/00_scope.md R5, the open parameters of R6 with their
defaults, and the one free value, the random byte of CXNN. -/

namespace Sys2Proof.Config

/-- `MEM_CAP`: bytes of memory; the valid addresses are 0 to 4095 (R5). -/
abbrev memCap : Nat := 4096

/-- `STACK_CAP`: entries of the call stack (R5). -/
abbrev stackCap : Nat := 12

/-- `FB_W`: columns of the frame buffer (R5, R170). -/
abbrev fbWidth : Nat := 64

/-- `FB_H`: rows of the frame buffer (R5, R170). -/
abbrev fbHeight : Nat := 32

/-- Bytes of the font table: 16 glyphs of `GLYPH_LEN` = 5 bytes, from `FONT_BASE` = 0 (R5, R57). -/
abbrev fontLen : Nat := 80

/-- The default of the parameter `FONT`, the customary hex font of R58.
PRESUMED (the spec marks these bytes as general knowledge, G2); log 3. -/
def font : Vector Byte fontLen := #v[
  0xF0, 0x90, 0x90, 0x90, 0xF0,  0x20, 0x60, 0x20, 0x20, 0x70,
  0xF0, 0x10, 0xF0, 0x80, 0xF0,  0xF0, 0x10, 0xF0, 0x10, 0xF0,
  0x90, 0x90, 0xF0, 0x10, 0x10,  0xF0, 0x80, 0xF0, 0x10, 0xF0,
  0xF0, 0x80, 0xF0, 0x90, 0xF0,  0xF0, 0x10, 0x20, 0x40, 0x40,
  0xF0, 0x90, 0xF0, 0x90, 0xF0,  0xF0, 0x90, 0xF0, 0x10, 0xF0,
  0xF0, 0x90, 0xF0, 0x90, 0x90,  0xE0, 0x90, 0xE0, 0x90, 0xE0,
  0xF0, 0x80, 0x80, 0x80, 0xF0,  0xE0, 0x90, 0x90, 0x90, 0xE0,
  0xF0, 0x80, 0xF0, 0x80, 0xF0,  0xF0, 0x80, 0xF0, 0x80, 0x80]

/-- The open parameters of R6 that the Reset event reads: every value of this type is one R6 allows. -/
structure Params where
  /-- `PROGRAM_ORIGIN`, an address below 4096. -/
  origin : Addr12
  /-- R6's lower bound on `PROGRAM_ORIGIN`: the program region never overlaps the glyph table at 0 to 79. -/
  aboveFont : 80 ≤ origin.toNat
  /-- `FONT`: `font[5*d .. 5*d+4]` is the glyph of hex digit `d`. -/
  font : Vector Byte fontLen
deriving DecidableEq, Repr

/-- The defaults of R6: origin 0x200 and the font of R58. PRESUMED (general knowledge by the spec's own mark); logs 2, 3. -/
def Params.standard : Params := { origin := 0x200, aboveFont := by decide, font := Config.font }

/-- The byte that the `n`-th Step the host raises of its own accord carries as its argument `rnd` (R90, R143): a free value, one
independent draw for each `n`. It has no body, so nothing can be proved of its value; log 5. -/
opaque rnd : Nat → Byte

end Sys2Proof.Config
end

