-- ==== Sys2Proof/Machine/State.lean ====
section
/-! DEFINITION. The state of the core (spec/10_state.md R20 to R36), plain data, and the machine right after reset (R35). -/

namespace Sys2Proof.Machine

/-- The control machine's two values (R31). -/
inductive Fsm where
  /-- READY: ready to fetch. -/
  | ready
  /-- AWAIT_RELEASE: FX0A has seen a key down and waits for its release. -/
  | awaitRelease
deriving DecidableEq, Repr

/-- The field `halt`: running, or the cause of the fatal condition (R32, 60_exceptions.md R210). -/
inductive Halt where
  | running
  | imageTooLarge
  | stackOverflow
  | stackUnderflow
  | memRange
deriving DecidableEq, Repr

/-- The cause codes of R210. -/
def Halt.code : Halt → BitVec 3
  | .running => 0
  | .imageTooLarge => 1
  | .stackOverflow => 2
  | .stackUnderflow => 3
  | .memRange => 4

/-- The five events the host raises, with their arguments (40_cycle_fsm.md R90). A Reset also carries the parameters of R6 (log 19). -/
inductive Event where
  /-- `Reset(img)`, R240 and R241. -/
  | reset (p : Config.Params) (img : List Byte)
  /-- `Step(rnd)`, one instruction cycle, R91; the byte is used only when the instruction is CXNN. -/
  | step (rnd : Byte)
  /-- `Tick`, R98. -/
  | tick
  /-- `SetKey(k, p)`, R99. -/
  | setKey (k : Nibble) (pressed : Bool)
  /-- `Present`, R100. -/
  | present
deriving DecidableEq, Repr

/-- The memory: (address, byte) pairs over what an unlisted address reads as (`Memory.unlisted`), in the canonical form
`Memory.wf` (log 4). -/
abbrev Memory := List Host.Cell

/-- The frame buffer: 32 rows of 64 bits, row 0 first; column `x` of a row is its `x`-th bit from the most significant end
(R29, R170; log 9). -/
abbrev FrameBuffer := Vector (BitVec 64) 32

/-- The whole state of the core: exactly the fields of R20, in its order. -/
structure CoreState where
  /-- `V[0..15]`: the general registers (R21); `V[15]` is the flag register VF (R22). -/
  v : Vector Byte 16
  /-- `I`: the address register, all 16 bits stored (R23). -/
  i : Word
  /-- `pc`: the program counter, a byte address (R24, R25). -/
  pc : Word
  /-- `stack[0..11]`: the return addresses (R26). -/
  stack : Vector Word 12
  /-- `sp`: the stack depth, 0 to 12 (R26; log 10). -/
  sp : Fin 13
  /-- `DT`: the delay timer (R27). -/
  dt : Byte
  /-- `ST`: the sound timer (R28). -/
  st : Byte
  /-- `fb`: the frame buffer (R29). -/
  fb : FrameBuffer
  /-- `mem`: the 4096 bytes of memory (R30). -/
  mem : Memory
  /-- `key[0..15]`: bit `k` is 1 while key `k` is pressed (R33). -/
  key : BitVec 16
  /-- `fsm`: the control state (R31). -/
  fsm : Fsm
  /-- `wk`: the key whose release is awaited; stale while READY (R31). -/
  wk : Nibble
  /-- `wx`: the X field of the waiting FX0A; stale while READY (R31). -/
  wx : Nibble
  /-- `halt`: running, or the fatal condition that stopped the core (R32). -/
  halt : Halt
  /-- `err_addr`: the lowest offending address of MEM_RANGE, else 0 (R32). -/
  errAddr : BitVec 17
deriving DecidableEq, Repr

/-- What stands outside the core, the model's own: the host that raises the events, and the input of the Step that runs. None of it is
state of the core (R34): no instruction changes it, and `rnd` is all of it that an instruction reads. -/
structure Outside where
  /-- The events the host raises next, the first one first; when there is none it raises a Step of its own accord (R90, R101; log 6). -/
  pending : List Event
  /-- The input `rnd`: the byte that the latest Step event brought (R90, R143; log 5). -/
  rnd : Byte
  /-- How many Steps the host has raised of its own accord; the next of them brings `Config.rnd supplied` (log 5). -/
  supplied : Nat
deriving DecidableEq, Repr

/-- The closed system that `step` moves: the core, and what stands outside it. -/
structure State extends CoreState where
  /-- What stands outside the core. -/
  outside : Outside
deriving DecidableEq, Repr

/-- Why the model stops with a fault: never. Each fatal condition of the spec is a described entry into the halted state (R212),
which the model takes as a next state (log 7), so this type has no constructor. Safe: nothing is stopped. -/
inductive Fault
deriving DecidableEq, Repr

/-- Why the model refuses an instruction. -/
inductive Refusal where
  /-- Raised by an arm of `exec` that has no meaning yet; safe, since the machine stops. No arm raises it. -/
  | notModelled (mnemonic : String)
deriving DecidableEq, Repr

/-- The state after the Reset event with the empty image and the default parameters (R35, R240): memory holds the font and zeros
(nothing listed), `pc` is `PROGRAM_ORIGIN`, every other field is zero, cleared or READY. The zeros of `V`, `I`, the stack slots,
`wk` and `wx` are the spec's decision D4 (log 1); what stands outside the core is the model's choice (logs 5, 6). -/
def State.reset : State where
  v := Vector.replicate 16 0
  i := 0
  pc := Config.Params.standard.origin.setWidth 16
  stack := Vector.replicate 12 0
  sp := 0
  dt := 0
  st := 0
  fb := Vector.replicate 32 0
  mem := []
  key := 0
  fsm := .ready
  wk := 0
  wx := 0
  halt := .running
  errAddr := 0
  outside := { pending := [], rnd := 0, supplied := 0 }

end Sys2Proof.Machine
end

