-- ==== Sys2Proof/Machine/Ops.lean ====
section
/-! DEFINITION. The named operations over registers, memory and the control fields: what the instruction rules of spec/ are
written with (00_scope.md R8), the one entry into a fatal condition (60_exceptions.md R212), and the fetch of a word. -/

namespace Sys2Proof.Machine

/-- The outcome of a meaning or a step. -/
abbrev Result := Host.Outcome State Fault Refusal

/-! ### Registers -/

/-- `V[r]` (R8, R21): no register is hard-wired. -/
def State.readV (s : State) (r : Nibble) : Byte := s.v[r.toNat]'r.isLt

/-- `V[r] <- b` (R8). -/
def State.writeV (s : State) (r : Nibble) (b : Byte) : State := { s with v := s.v.set r.toNat b r.isLt }

/-- The number of the flag register VF = V[15] (R22). -/
abbrev vf : Nibble := 15

/-- `pc <- a` (R94). -/
def State.setPc (s : State) (a : Word) : State := { s with pc := a }

/-- `npc` = (pc + 2) mod 65536, the address of the instruction after this one (R93). -/
def State.npc (s : State) : Word := s.pc + 2

/-- next_pc = npc: what a rule that says nothing about pc ends with (R94). -/
def State.advance (s : State) : State := s.setPc s.npc

/-! ### Memory -/

/-- What an address reads as when the memory's list does not name it: its content after Reset with the default parameters, the
font table at 0 to 79 and zero elsewhere (R35, R57; log 4). -/
def Memory.unlisted (a : Nat) : Byte := if h : a < Config.fontLen then Config.font[a] else 0

/-- The byte at address `a` (`mem[a]`, R52), once the range check has passed. -/
def Memory.read : Memory → Nat → Byte
  | [], a => Memory.unlisted a
  | (b, w) :: t, a => if b = a then w else Memory.read t a

/-- The list without the entries of address `a`. -/
def Memory.unlist (m : Memory) (a : Nat) : Memory := m.filter (fun c => c.1 != a)

/-- Puts an entry before the first entry of a higher or equal address. -/
def Memory.place : Memory → Nat → Byte → Memory
  | [], a, b => [(a, b)]
  | c :: t, a, b => if c.1 < a then c :: Memory.place t a b else (a, b) :: c :: t

/-- `mem[a] <- b` (R52), keeping the canonical form: a byte equal to what an unlisted address reads as is not listed. -/
def Memory.write (m : Memory) (a : Nat) (b : Byte) : Memory :=
  if b = Memory.unlisted a then m.unlist a else (m.unlist a).place a b

/-- The bytes at `a`, `a + 1`, …: `n` of them. -/
def Memory.readBytes (m : Memory) (a : Nat) : Nat → List Byte
  | 0 => []
  | n + 1 => m.read a :: Memory.readBytes m (a + 1) n

/-- Stores bytes at `a`, `a + 1`, … in ascending order. -/
def Memory.writeBytes (m : Memory) (a : Nat) : List Byte → Memory
  | [] => m
  | b :: bs => Memory.writeBytes (m.write a b) (a + 1) bs

/-- The canonical form from address `lo` on: addresses strictly rising and below 4096, no entry equal to what its address reads as
unlisted. -/
def Memory.wfFrom (lo : Nat) : Memory → Bool
  | [] => true
  | (a, b) :: t =>
    decide (lo ≤ a) && decide (a < Config.memCap) && decide (b ≠ Memory.unlisted a) && Memory.wfFrom (a + 1) t

/-- The canonical form of the memory (log 4). -/
def Memory.wf (m : Memory) : Bool := m.wfFrom 0

/-! ### Fatal conditions -/

/-- Entry into a fatal condition: `halt <- cause`, `err_addr <- addr` and nothing else; pc keeps the address of the instruction
(R212, R213). There is no return from it but Reset (R215). -/
def State.fatal (s : State) (cause : Halt) (addr : Nat) : State :=
  { s with halt := cause, errAddr := BitVec.ofNat 17 addr }

/-- The lowest address of `base`, …, `base + n - 1` that is 4096 or more (R211: max(base, 4096)), if there is one. -/
def firstOutOfRange (base n : Nat) : Option Nat :=
  if n = 0 ∨ base + n ≤ Config.memCap then none else some (max base Config.memCap)

/-- An instruction that accesses the `n` bytes from `base` on: MEM_RANGE when one of them is out of range, before anything is
written, else its effect `t` (R52, R213). -/
def State.accessing (s : State) (base n : Nat) (t : State) : Result :=
  match firstOutOfRange base n with
  | some a => .next (s.fatal .memRange a)
  | none => .next t

/-- The word at address `a`: the byte at the lower address is the high byte (R53). -/
def Memory.readWord (m : Memory) (a : Nat) : Word := wordOfBytes (m.read a) (m.read (a + 1))

/-! ### The key state -/

/-- `key[k]` = 1 (R33). -/
def State.keyDown (s : State) (k : Nibble) : Bool := s.key.getLsbD k.toNat

/-- `key[k] <- p` (R99). -/
def State.writeKey (s : State) (k : Nibble) (p : Bool) : State :=
  { s with key := if p then s.key ||| BitVec.twoPow 16 k.toNat else s.key &&& ~~~(BitVec.twoPow 16 k.toNat) }

/-- The lowest pressed key (R192). -/
def State.lowestKey (s : State) : Option Nibble :=
  ((List.range 16).find? (fun j => s.key.getLsbD j)).map (BitVec.ofNat 4)

end Sys2Proof.Machine
end

