-- ==== Sys2Proof/Machine/Flags.lean ====
section
/-! DEFINITION. The values written to VF, the machine's only flag (spec/10_state.md R22), and the two write orders of
40_cycle_fsm.md R95. -/

namespace Sys2Proof.Machine

/-- A flag as a register value: 1 or 0. -/
def flagByte (b : Bool) : Byte := if b then 1 else 0

/-- The carry of an addition: 1 exactly when the sum exceeds 255 (R141, R136). -/
def carryFlag (a b : Byte) : Byte := flagByte (decide (255 < a.toNat + b.toNat))

/-- The no-borrow flag of a subtraction a - b: 1 exactly when a >= b (R141, R137, R139). -/
def noBorrowFlag (a b : Byte) : Byte := flagByte (decide (b.toNat ≤ a.toNat))

/-- The bit a right shift by one shifts out: bit 0 (R138). -/
def lowBitFlag (a : Byte) : Byte := flagByte (a.getLsbD 0)

/-- The bit a left shift by one shifts out: bit 7 (R140). -/
def highBitFlag (a : Byte) : Byte := flagByte (a.getLsbD 7)

/-- Result, then flag: with X = 15 the flag stays (8XY4; R95, R142). -/
def State.writeResultThenFlag (s : State) (x : Nibble) (r f : Byte) : State := (s.writeV x r).writeV vf f

/-- Flag, then result: with X = 15 the result stays (8XY5, 8XY6, 8XY7, 8XYE; R95, R142). -/
def State.writeFlagThenResult (s : State) (x : Nibble) (r f : Byte) : State := (s.writeV vf f).writeV x r

end Sys2Proof.Machine
end

