-- ==== Sys2Proof/Machine/Operands.lean ====
section
/-! DEFINITION. The operand forms of spec/30_encoding.md R73 and 43_index_memory.md R156, and the next_pc forms of
41_control_flow.md R118. -/

namespace Sys2Proof.Machine

/-- `zext_16(NNN)`: an address immediate widened with zeros (R73). -/
def zextAddr (nnn : Addr12) : Word := nnn.setWidth 16

/-- `zext_16(v)`: a register value widened with zeros (R8). -/
def zextByte (b : Byte) : Word := b.setWidth 16

/-- `zext_8(k)`: a key number as a register value (R97). -/
def zextKey (k : Nibble) : Byte := k.setWidth 8

/-- The key an instruction tests: the low four bits of the register (R196). -/
def keyNumber (vx : Byte) : Nibble := vx.setWidth 4

/-- The effective address `I + k`, a natural number that is not reduced (R9, R156). -/
def State.effAddr (s : State) (k : Nat) : Nat := s.i.toNat + k

/-- A skip: next_pc = npc + 2 when the condition holds, else npc (R118). -/
def State.skipIf (s : State) (cond : Bool) : State := if cond then s.setPc (s.npc + 2) else s.advance

/-- The registers V[0] to V[X], in order (R154). -/
def State.lowRegs (s : State) (x : Nibble) : List Byte := s.v.toList.take (x.toNat + 1)

/-- `V[i] <- mem[I + i]` for i = 0 .. X; the registers above X keep their values (R155). -/
def State.loadLowRegs (s : State) (x : Nibble) : State :=
  { s with v := Vector.ofFn fun r => if r.val ≤ x.toNat then s.mem.read (s.effAddr r.val) else s.v[r] }

/-- The hundreds, tens and units of a value, one binary number 0 to 9 a byte (R153). -/
def bcdDigits (b : Byte) : List Byte :=
  [BitVec.ofNat 8 (b.toNat / 100), BitVec.ofNat 8 (b.toNat / 10 % 10), BitVec.ofNat 8 (b.toNat % 10)]

end Sys2Proof.Machine
end

