-- ==== Sys2Proof/Machine/Alu.lean ====
section
/-! DEFINITION. Register load, arithmetic, logic, shifts and random (spec/42_load_alu.md R130 to R143). The sources are latched
before any write (40_cycle_fsm.md R95); arithmetic wraps mod 256 (R141). -/

namespace Sys2Proof.Machine

/-- 6XNN (R130): V[X] = NN. -/
def execLdImm (x : Nibble) (nn : Byte) (s : State) : Result := .next (s.writeV x nn).advance

/-- 7XNN (R131): V[X] = V[X] + NN mod 256; VF is not written. -/
def execAddImm (x : Nibble) (nn : Byte) (s : State) : Result := .next (s.writeV x (s.readV x + nn)).advance

/-- 8XY0 (R132): V[X] = V[Y]. -/
def execLdReg (x y : Nibble) (s : State) : Result := .next (s.writeV x (s.readV y)).advance

/-- 8XY1 (R133): V[X] = V[X] | V[Y]; VF is not written. -/
def execOrReg (x y : Nibble) (s : State) : Result := .next (s.writeV x (s.readV x ||| s.readV y)).advance

/-- 8XY2 (R134): V[X] = V[X] & V[Y]; VF is not written. -/
def execAndReg (x y : Nibble) (s : State) : Result := .next (s.writeV x (s.readV x &&& s.readV y)).advance

/-- 8XY3 (R135): V[X] = V[X] ^ V[Y]; VF is not written. -/
def execXorReg (x y : Nibble) (s : State) : Result := .next (s.writeV x (s.readV x ^^^ s.readV y)).advance

/-- 8XY4 (R136): the sum mod 256, then VF = carry. -/
def execAddReg (x y : Nibble) (s : State) : Result :=
  .next (s.writeResultThenFlag x (s.readV x + s.readV y) (carryFlag (s.readV x) (s.readV y))).advance

/-- 8XY5 (R137): VF = no borrow, then V[X] = V[X] - V[Y] mod 256. -/
def execSubReg (x y : Nibble) (s : State) : Result :=
  .next (s.writeFlagThenResult x (s.readV x - s.readV y) (noBorrowFlag (s.readV x) (s.readV y))).advance

/-- 8XY6 (R138): VF = bit 0 of V[Y], then V[X] = V[Y] >> 1. -/
def execShr (x y : Nibble) (s : State) : Result :=
  .next (s.writeFlagThenResult x (s.readV y >>> 1) (lowBitFlag (s.readV y))).advance

/-- 8XY7 (R139): VF = no borrow, then V[X] = V[Y] - V[X] mod 256. -/
def execSubnReg (x y : Nibble) (s : State) : Result :=
  .next (s.writeFlagThenResult x (s.readV y - s.readV x) (noBorrowFlag (s.readV y) (s.readV x))).advance

/-- 8XYE (R140): VF = bit 7 of V[Y], then V[X] = V[Y] << 1 mod 256. -/
def execShl (x y : Nibble) (s : State) : Result :=
  .next (s.writeFlagThenResult x (s.readV y <<< 1) (highBitFlag (s.readV y))).advance

/-- CXNN (R143): V[X] = rnd & NN, with the input byte `rnd` of this Step (log 5). -/
def execRnd (x : Nibble) (nn : Byte) (s : State) : Result :=
  .next (s.writeV x (s.outside.rnd &&& nn)).advance

end Sys2Proof.Machine
end

