-- ==== Sys2Proof/Machine/Control.lean ====
section
/-! DEFINITION. Control transfer (spec/41_control_flow.md R110 to R120) and the undefined words (40_cycle_fsm.md R96). Targets are
not checked when they are written to pc (R120). -/

namespace Sys2Proof.Machine

/-- 00EE (R110): pops the call stack into pc; STACK_UNDERFLOW when it is empty. The slot keeps its value. -/
def execRet (_ignored : Nibble) (s : State) : Result :=
  if h : s.sp.val = 0 then .next (s.fatal .stackUnderflow 0)
  else .next ({ s with sp := ⟨s.sp.val - 1, by omega⟩ }.setPc (s.stack[s.sp.val - 1]'(by omega)))

/-- 1NNN (R111): pc = NNN. -/
def execJp (nnn : Addr12) (s : State) : Result := .next (s.setPc (zextAddr nnn))

/-- 2NNN (R112): pushes npc, pc = NNN; STACK_OVERFLOW when twelve entries are live. -/
def execCall (nnn : Addr12) (s : State) : Result :=
  if h : s.sp.val = 12 then .next (s.fatal .stackOverflow 0)
  else .next ({ s with stack := s.stack.set s.sp.val s.npc (by omega), sp := ⟨s.sp.val + 1, by omega⟩ }.setPc (zextAddr nnn))

/-- BNNN (R113): pc = NNN + V[0], kept in 16 bits and not reduced to 12. -/
def execJpV0 (nnn : Addr12) (s : State) : Result := .next (s.setPc (zextAddr nnn + zextByte (s.readV 0)))

/-- 3XNN (R114): skip if V[X] = NN. -/
def execSeImm (x : Nibble) (nn : Byte) (s : State) : Result := .next (s.skipIf (s.readV x == nn))

/-- 4XNN (R115): skip if V[X] differs from NN. -/
def execSneImm (x : Nibble) (nn : Byte) (s : State) : Result := .next (s.skipIf (s.readV x != nn))

/-- 5XY_ (R116): skip if V[X] = V[Y]; the N nibble is ignored. -/
def execSeReg (x y _ignored : Nibble) (s : State) : Result := .next (s.skipIf (s.readV x == s.readV y))

/-- 9XY_ (R117): skip if V[X] differs from V[Y]; the N nibble is ignored. -/
def execSneReg (x y _ignored : Nibble) (s : State) : Result := .next (s.skipIf (s.readV x != s.readV y))

/-- An undefined word (R96, R77): nothing but next_pc = npc. -/
def execUndefined (_w : Word) (s : State) : Result := .next s.advance

end Sys2Proof.Machine
end

