-- ==== Sys2Proof/Machine/Display.lean ====
section
/-! DEFINITION. The frame buffer, clear screen and the XOR-draw engine (spec/44_display.md R170 to R176). -/

namespace Sys2Proof.Machine

/-- Row `y` of the frame buffer; there is nothing below row 31. -/
def FrameBuffer.row (fb : FrameBuffer) (y : Nat) : BitVec 64 := if h : y < 32 then fb[y] else 0

/-- Replaces row `y`. -/
def FrameBuffer.setRow (fb : FrameBuffer) (y : Nat) (r : BitVec 64) : FrameBuffer := fb.setIfInBounds y r

/-- get-pixel (R176): `fb[y][x]`, column `x` and row `y`; off outside the screen. -/
def FrameBuffer.pixel (fb : FrameBuffer) (x y : Nat) : Bool := (fb.row y).getMsbD x

/-- clear (R176, R171): all pixels off. -/
def FrameBuffer.clear : FrameBuffer := Vector.replicate 32 0

/-- A sprite byte placed with its bit 7 at column `x0`: the bits past column 63 are cut off, none wraps (R172, R173). -/
def spriteRow (b : Byte) (x0 : Nat) : BitVec 64 := (b ++ 0#56) >>> x0

/-- XOR-draw-row (R176): one sprite byte at row `y` from column `x0`, and whether a pixel went from on to off (R174). -/
def FrameBuffer.xorRow (fb : FrameBuffer) (x0 y : Nat) (b : Byte) : FrameBuffer × Bool :=
  (fb.setRow y (fb.row y ^^^ spriteRow b x0), fb.row y &&& spriteRow b x0 != 0)

/-- Draws sprite bytes on successive rows from row `y` on; the flag is set when any row's draw turned a pixel off (R172). -/
def FrameBuffer.drawRows (fb : FrameBuffer) (x0 y : Nat) : List Byte → FrameBuffer × Bool
  | [] => (fb, false)
  | b :: bs =>
    let first := fb.xorRow x0 y b
    let rest := FrameBuffer.drawRows first.1 x0 (y + 1) bs
    (rest.1, first.2 || rest.2)

/-- 00E0 (R171): clears the frame buffer; VF is not written. -/
def execCls (_ignored : Nibble) (s : State) : Result := .next { s with fb := FrameBuffer.clear }.advance

/-- The starting column of DXYN: V[X] mod 64 (R172). -/
def State.drawColumn (s : State) (x : Nibble) : Nat := (s.readV x).toNat % Config.fbWidth

/-- The starting row of DXYN: V[Y] mod 32 (R172). -/
def State.drawRow (s : State) (y : Nibble) : Nat := (s.readV y).toNat % Config.fbHeight

/-- The sprite rows of DXYN that fall on the screen; the others are neither drawn nor read (R172, R173). -/
def State.drawCount (s : State) (y n : Nibble) : Nat := min n.toNat (Config.fbHeight - s.drawRow y)

/-- DXYN (R172): draws the sprite at I by exclusive or and writes VF = collision, from the latched V[X] and V[Y] (R174);
MEM_RANGE, before anything is written, when a row that is drawn lies out of range. -/
def execDrw (x y n : Nibble) (s : State) : Result :=
  let drawn := s.fb.drawRows (s.drawColumn x) (s.drawRow y) (s.mem.readBytes (s.effAddr 0) (s.drawCount y n))
  s.accessing (s.effAddr 0) (s.drawCount y n) ({ s with fb := drawn.1 }.writeV vf (flagByte drawn.2)).advance

end Sys2Proof.Machine
end

