-- ==== Sys2Proof/Machine/IndexMemory.lean ====
section
/-! DEFINITION. The address register and the memory transfers (spec/43_index_memory.md R150 to R156). No instruction here writes VF
as a flag, and none that accesses memory changes I. -/

namespace Sys2Proof.Machine

/-- ANNN (R150): I = NNN. -/
def execLdI (nnn : Addr12) (s : State) : Result := .next { s with i := zextAddr nnn }.advance

/-- FX1E (R151): I = I + V[X] mod 65536; VF is not written. -/
def execAddI (x : Nibble) (s : State) : Result := .next { s with i := s.i + zextByte (s.readV x) }.advance

/-- FX29 (R152): I = V[X] * 5, the whole 8-bit value. -/
def execLdF (x : Nibble) (s : State) : Result := .next { s with i := zextByte (s.readV x) * 5 }.advance

/-- FX33 (R153): the three decimal digits of V[X] at I, I+1, I+2; MEM_RANGE when one of them is out of range. -/
def execLdB (x : Nibble) (s : State) : Result :=
  s.accessing (s.effAddr 0) 3 { s with mem := s.mem.writeBytes (s.effAddr 0) (bcdDigits (s.readV x)) }.advance

/-- FX55 (R154): V[0] to V[X] at I to I + X; MEM_RANGE when one of them is out of range. -/
def execStRegs (x : Nibble) (s : State) : Result :=
  s.accessing (s.effAddr 0) (x.toNat + 1) { s with mem := s.mem.writeBytes (s.effAddr 0) (s.lowRegs x) }.advance

/-- FX65 (R155): V[0] to V[X] from I to I + X; MEM_RANGE when one of them is out of range. -/
def execLdRegs (x : Nibble) (s : State) : Result :=
  s.accessing (s.effAddr 0) (x.toNat + 1) (s.loadLowRegs x).advance

end Sys2Proof.Machine
end

