-- ==== Sys2Proof/Machine/KeypadTimers.lean ====
section
/-! DEFINITION. Keypad skips, wait for key and timer access (spec/45_keypad_timers.md R190 to R197), and the Step that ends the wait
(40_cycle_fsm.md R97). -/

namespace Sys2Proof.Machine

/-- EX9E (R190): skip if the key numbered by the low nibble of V[X] is pressed. -/
def execSkp (x : Nibble) (s : State) : Result := .next (s.skipIf (s.keyDown (keyNumber (s.readV x))))

/-- EXA1 (R191): skip if the key numbered by the low nibble of V[X] is not pressed. -/
def execSknp (x : Nibble) (s : State) : Result := .next (s.skipIf (!s.keyDown (keyNumber (s.readV x))))

/-- FX0A (R192): pc stays on this instruction; when a key is down, latches the lowest one and X and waits for its release. -/
def execLdVxK (x : Nibble) (s : State) : Result :=
  match s.lowestKey with
  | some k => .next { s with fsm := .awaitRelease, wk := k, wx := x }
  | none => .next s

/-- StepAwait (R97): when the awaited key is up, its number goes to V[wx], pc moves past the FX0A and the core is READY again;
else nothing changes. Nothing is fetched. -/
def State.stepAwait (s : State) : State :=
  if s.keyDown s.wk then s else { s.writeV s.wx (zextKey s.wk) with fsm := .ready }.advance

/-- FX07 (R193): V[X] = DT. -/
def execLdVxDt (x : Nibble) (s : State) : Result := .next (s.writeV x s.dt).advance

/-- FX15 (R194): DT = V[X]. -/
def execLdDtVx (x : Nibble) (s : State) : Result := .next { s with dt := s.readV x }.advance

/-- FX18 (R195): ST = V[X]. -/
def execLdStVx (x : Nibble) (s : State) : Result := .next { s with st := s.readV x }.advance

end Sys2Proof.Machine
end

