-- ==== Sys2Proof/Machine/Events.lean ====
section
/-! DEFINITION. The five events of spec/40_cycle_fsm.md R90, each a total function on the state, and the outputs of
60_exceptions.md R225 to R228. What an event does, it does to the core: what stands outside moves only as an event is taken. -/

namespace Sys2Proof.Machine

/-! ### Step -/

/-- StepExecute (R92): fetch, decode, execute; a fetch out of range is MEM_RANGE at the address it was tried at (R53). -/
def State.stepExecute (s : State) : Result :=
  match firstOutOfRange s.pc.toNat 2 with
  | some a => .next (s.fatal .memRange a)
  | none => exec (decodeWord (s.mem.readWord s.pc.toNat)) s

/-- Step (R91): nothing when halted, StepAwait while a key's release is awaited, else one instruction. -/
def State.stepEvent (s : State) : Result :=
  match s.halt, s.fsm with
  | .running, .ready => s.stepExecute
  | .running, .awaitRelease => .next s.stepAwait
  | _, _ => .next s

/-! ### Tick, SetKey, Present -/

/-- One count of a timer, which stays at 0 (R27, R98). -/
def countDown (t : Byte) : Byte := if t = 0 then 0 else t - 1

/-- Tick (R98): counts both timers down, unless halted. -/
def State.tick (s : State) : State :=
  if s.halt = .running then { s with dt := countDown s.dt, st := countDown s.st } else s

/-- Present (R100): what the display collaborator reads; the state does not change. -/
def State.snapshot (s : State) : FrameBuffer := s.fb

/-- The output `sound_on` (R28, R228). -/
def State.soundOn (s : State) : Bool := decide (0 < s.st.toNat)

/-- The diagnostic outputs `halt` (its code), `err_addr`, `pc` and `sp` (R225). -/
def State.diagnostics (s : State) : BitVec 3 × BitVec 17 × Word × Nat := (s.halt.code, s.errAddr, s.pc, s.sp.val)

/-! ### Reset -/

/-- The memory before the image is copied in: zeros and the parameter `FONT` at 0 to 79 (R240). -/
def fontMemory (font : Vector Byte Config.fontLen) : Memory := Memory.writeBytes [] 0 font.toList

/-- The state that Reset leaves but for the image (R240): every field of the core at its reset value. -/
def State.cleared (s : State) (p : Config.Params) : State :=
  { State.reset with
    pc := p.origin.setWidth 16, mem := fontMemory p.font, outside := s.outside }

/-- An image fits (R66): at most 4096 - `PROGRAM_ORIGIN` bytes. -/
def imageFits (p : Config.Params) (img : List Byte) : Bool := decide (img.length ≤ Config.memCap - p.origin.toNat)

/-- Reset(img): the image is copied in at `PROGRAM_ORIGIN` (R240), or, when it does not fit, none of it is and the core is halted
with IMAGE_TOO_LARGE (R241). -/
def State.resetEvent (s : State) (p : Config.Params) (img : List Byte) : State :=
  let c := s.cleared p
  if imageFits p img then { c with mem := c.mem.writeBytes p.origin.toNat img } else c.fatal .imageTooLarge 0

/-! ### The next event -/

/-- What an event does (R90). -/
def State.applyEvent (s : State) : Event → Result
  | .reset p img => .next (s.resetEvent p img)
  | .step _ => s.stepEvent
  | .tick => .next s.tick
  | .setKey k p => .next (s.writeKey k p)
  | .present => .next s

/-- The Step that the host raises of its own accord, with a free byte (log 5). -/
def Outside.freeStep (o : Outside) : Event := .step (Config.rnd o.supplied)

/-- The event the host raises next: the first one pending, or a Step when there is none (log 6). -/
def Outside.nextEvent (o : Outside) : Event := o.pending.headD o.freeStep

/-- What stands outside once the next event is raised: the event is no longer to come, and the byte of a Step is on the input. -/
def Outside.raised (o : Outside) : Outside where
  pending := o.pending.tail
  rnd := match o.nextEvent with
    | .step b => b
    | _ => o.rnd
  supplied := if o.pending = [] then o.supplied + 1 else o.supplied

/-- The event the host raises next. -/
def State.nextEvent (s : State) : Event := s.outside.nextEvent

/-- The state in which the next event runs. -/
def State.takeEvent (s : State) : State := { s with outside := s.outside.raised }

/-- The next event is a Step, and no other: puts one, with a free byte, in front where other events are pending. -/
def State.withStepNext (s : State) : State :=
  match s.nextEvent with
  | .step _ => s
  | _ => { s with outside :=
      { s.outside with pending := s.outside.freeStep :: s.outside.pending, supplied := s.outside.supplied + 1 } }

/-- The address an instruction can be fetched from: pc, or the default origin where a fetch at pc is out of range. -/
def State.fetchAddr (s : State) : Word :=
  match firstOutOfRange s.pc.toNat 2 with
  | some _ => Config.Params.standard.origin.setWidth 16
  | none => s.pc

end Sys2Proof.Machine
end

