-- ==== Sys2Proof/Machine/Step.lean ====
section
/-! DEFINITION. One step of the machine: the next event the host raises (spec/40_cycle_fsm.md R90, R101; log 6). -/

namespace Sys2Proof.Machine

/-- One event: the first pending one, or a Step when the host has none pending. -/
def step (s : State) : Host.Outcome State Fault Refusal := s.takeEvent.applyEvent s.nextEvent

/-- The state with an instruction stored where `step` fetches next: its two bytes at pc, high byte first (R53), in a core that is
running, READY and about to be stepped (log 20). -/
def State.withFetchWord (s : State) (nbits w : Nat) : State :=
  let a := s.fetchAddr
  let t := s.withStepNext
  { t with
    pc := a
    mem := s.mem.writeBytes a.toNat [highByte (tableWord nbits w), lowByte (tableWord nbits w)]
    fsm := .ready
    halt := .running }

end Sys2Proof.Machine
end

