-- ==== Sys2Proof/Safety.lean ====
section
/-! DEFINITION. The terms claims are stated in: what a safe run is, the parts of the state and what a change touches, and the
invariant of the machine. -/

namespace Sys2Proof.Machine

/-- A state is safe when no fatal condition has stopped the core (spec/60_exceptions.md R215). -/
def State.Safe (s : State) : Prop := s.halt = .running

/-- `n` steps in a row, stopping at the first that answers no next state. -/
def runSteps : Nat → State → Result
  | 0, s => .next s
  | n + 1, s =>
    match step s with
    | .next t => runSteps n t
    | .fault f => .fault f
    | .refused r => .refused r

/-! ### Parts of the state and frames -/

/-- One observable part of the state (R20). A part of memory is one byte, read through `Memory.read`; a part of the frame buffer is
one pixel, read through `FrameBuffer.pixel`. -/
inductive Part where
  | v (r : Nibble)
  | i
  | pc
  | slot (k : Fin 12)
  | sp
  | dt
  | st
  | pixel (x y : Nat)
  | mem (a : Nat)
  | key (k : Nibble)
  | fsm
  | wk
  | wx
  | halt
  | errAddr
deriving DecidableEq, Repr

/-- What a part of the state holds, as a number. -/
def State.look (s : State) : Part → Nat
  | .v r => (s.readV r).toNat
  | .i => s.i.toNat
  | .pc => s.pc.toNat
  | .slot k => s.stack[k].toNat
  | .sp => s.sp.val
  | .dt => s.dt.toNat
  | .st => s.st.toNat
  | .pixel x y => (s.fb.pixel x y).toNat
  | .mem a => (s.mem.read a).toNat
  | .key k => (s.keyDown k).toNat
  | .fsm => match s.fsm with
    | .ready => 0
    | .awaitRelease => 1
  | .wk => s.wk.toNat
  | .wx => s.wx.toNat
  | .halt => s.halt.code.toNat
  | .errAddr => s.errAddr.toNat

/-- Going from `s` to `t`, only parts of the core in `W` may have changed: every register, every stack slot, every byte of memory,
every pixel, every key bit and every control field outside `W` reads as before. -/
def CoreOnlyChanges (W : Part → Prop) (s t : State) : Prop := ∀ p : Part, ¬ W p → t.look p = s.look p

/-- Going from `s` to `t`, only parts of the core in `W` may have changed, and nothing outside the core has. -/
def OnlyChanges (W : Part → Prop) (s t : State) : Prop := CoreOnlyChanges W s t ∧ t.outside = s.outside

/-- The parts a fatal condition writes: `halt` and `err_addr` (R212). -/
def FatalParts (p : Part) : Prop := p = .halt ∨ p = .errAddr

/-- `t` is `s` stopped by a fatal condition: the cause and the address recorded, pc where it was, nothing else changed (R212, R213). -/
def StoppedBy (cause : Halt) (addr : Nat) (s t : State) : Prop :=
  t.halt = cause ∧ t.errAddr.toNat = addr ∧ OnlyChanges FatalParts s t

/-! ### The invariant -/

/-- What holds of every state a run from a Reset reaches: the memory is canonical (log 4); pc is at most 0x10FE (R25); the live stack
slots hold an npc, at most 4096 (R110); a core that waits for a key is running (R106) with pc on an instruction it has fetched (R24);
and `err_addr` is nonzero, 4096 or more, exactly under MEM_RANGE (R210). -/
structure State.Inv (s : State) : Prop where
  memory : s.mem.wf = true
  pcRange : s.pc.toNat ≤ 0x10FE
  liveSlots : ∀ k : Fin 12, k.val < s.sp.val → s.stack[k].toNat ≤ 4096
  waiting : s.fsm = .awaitRelease → s.halt = .running ∧ s.pc.toNat ≤ 4094
  rangeFault : s.halt = .memRange → 4096 ≤ s.errAddr.toNat ∧ s.errAddr.toNat ≤ 0xFFFF
  noAddress : s.halt ≠ .memRange → s.errAddr = 0

end Sys2Proof.Machine
end

