-- ==== Sys2Proof/Certificates/Slice0/Obligations.lean ====
section
/-! DEFINITION. The statements for the provers. Each docstring names the rule of spec/ it formalises. A frame is `OnlyChanges W s t`:
going from s to t, every part of the state outside W reads as before, every byte of memory and every pixel among them. -/

open Sys2Proof
open Sys2Proof.Machine

namespace Sys2Proof.Machine

/-- A row of the opcode map (R76): every word whose bits under the mask are the key decodes to the instruction given. -/
def RowDecodes (mask key : Word) (f : Word → Instr) : Prop := ∀ w : Word, w &&& mask = key → decodeWord w = f w

/-- A skip: it always completes, writes nothing but pc, and passes one more instruction exactly when the condition holds (R118). -/
def SkipsWhen (i : Instr) (cond : State → Prop) : Prop :=
  ∀ s : State, ∃ t, exec i s = .next t ∧ (cond s → t.pc = s.npc + 2) ∧ (¬ cond s → t.pc = s.npc) ∧
    OnlyChanges (fun p => p = .pc) s t

/-- A register result: the instruction always completes, moves pc to npc, and V[x] is all else it writes, with the value given. -/
def WritesRegister (i : Instr) (x : Nibble) (value : State → Nat) : Prop :=
  ∀ s : State, ∃ t, exec i s = .next t ∧ (t.readV x).toNat = value s ∧ t.pc = s.npc ∧
    OnlyChanges (fun p => p = .pc ∨ p = .v x) s t

/-- A result with a flag where the flag is written last (8XY4): with X = 15 the flag stays. -/
def WritesResultThenFlag (i : Instr) (x : Nibble) (result : State → Nat) (flag : State → Prop) : Prop :=
  ∀ s : State, ∃ t, exec i s = .next t ∧ (flag s → t.readV vf = 1) ∧ (¬ flag s → t.readV vf = 0) ∧
    (x ≠ vf → (t.readV x).toNat = result s) ∧ t.pc = s.npc ∧
    OnlyChanges (fun p => p = .pc ∨ p = .v x ∨ p = .v vf) s t

/-- A result with a flag where the result is written last (8XY5, 8XY6, 8XY7, 8XYE): with X = 15 the result stays. -/
def WritesFlagThenResult (i : Instr) (x : Nibble) (result : State → Nat) (flag : State → Prop) : Prop :=
  ∀ s : State, ∃ t, exec i s = .next t ∧ (t.readV x).toNat = result s ∧
    (x ≠ vf → (flag s → t.readV vf = 1) ∧ (¬ flag s → t.readV vf = 0)) ∧ t.pc = s.npc ∧
    OnlyChanges (fun p => p = .pc ∨ p = .v x ∨ p = .v vf) s t

/-- The sprite bit that falls on the pixel in column `px`, row `py`, when the `n`-row sprite at I is drawn at (V[x], V[y]): the start
wraps, the drawing is cut off at column 63 and row 31, bit 7 of a byte is leftmost (R172, R173). -/
def spriteBit (s : State) (x y n : Nibble) (px py : Nat) : Bool :=
  let x0 := (s.readV x).toNat % 64
  let y0 := (s.readV y).toNat % 32
  decide (x0 ≤ px ∧ px < x0 + 8 ∧ px < 64 ∧ y0 ≤ py ∧ py < y0 + n.toNat ∧ py < 32) &&
    (s.mem.read (s.i.toNat + (py - y0))).getLsbD (7 - (px - x0))

/-- The sprite rows that fall on the screen (R172). -/
def spriteRows (s : State) (y n : Nibble) : Nat := min n.toNat (32 - (s.readV y).toNat % 32)

end Sys2Proof.Machine

/-! ### Encoding -/

/-- R71, R76: decoding an encoded well-formed instruction gives it back, as a word and at the head of any bytes. That the ignored
nibbles and the word of an `undefined` come back too is the model's own notation (logs 13, 21). -/
def Obligations.DecodingAnEncodedInstruction : Prop :=
  ∀ (i : Instr) (rest : List Byte), i.wf = true →
    decodeWord (encode i) = i ∧ decode (encodeBytes i ++ rest) = .ok (i, rest)

/-- R74: decoding is total: every word decodes to a well-formed instruction. That it encodes to that very word, no bit lost, is the
model's own notation and no rule of the spec: the syntax keeps the ignored nibbles (log 13), and `undefined` its word (log 21). -/
def Obligations.EncodingADecodedWord : Prop :=
  ∀ w : Word, (decodeWord w).wf = true ∧ encode (decodeWord w) = w

/-- R76: the opcode map has 34 rows, no two of which match one word, and a word decodes to an instruction of the row it matches. -/
def Obligations.OpcodeMapSelectsOneRow : Prop :=
  opcodeRows.length = 34 ∧
  ∀ (w : Word) (r : OpRow), r ∈ opcodeRows → w &&& r.mask = r.key →
    (decodeWord w).mnemonic = r.name ∧ ∀ q ∈ opcodeRows, w &&& q.mask = q.key → q = r

/-- R77: the words no row matches, group by group. -/
def Obligations.UndefinedWordsByGroup : Prop :=
  ∀ w : Word, decodeWord w = .undefined w ↔
    (fieldOp w = 0x0 ∧ fieldNN w ≠ 0xE0 ∧ fieldNN w ≠ 0xEE) ∨
    (fieldOp w = 0x8 ∧ fieldN w ∈ [0x8, 0x9, 0xA, 0xB, 0xC, 0xD, 0xF]) ∨
    (fieldOp w = 0xE ∧ fieldNN w ≠ 0x9E ∧ fieldNN w ≠ 0xA1) ∨
    (fieldOp w = 0xF ∧ fieldNN w ∉ [0x07, 0x0A, 0x15, 0x18, 0x1E, 0x29, 0x33, 0x55, 0x65])

/-- Words written out from R76 and from the examples of spec/95_test_vectors.md decode to the instructions they stand for. -/
def Obligations.SampleWordsDecode : Prop :=
  decodeWord 0x0AE0 = .cls 0xA ∧ decodeWord 0x2208 = .call 0x208 ∧ decodeWord 0x5127 = .seReg 1 2 7 ∧
  decodeWord 0x81FE = .shl 1 0xF ∧ decodeWord 0xC30F = .rnd 3 0x0F ∧ decodeWord 0xD125 = .drw 1 2 5 ∧
  decodeWord 0xE4A1 = .sknp 4 ∧ decodeWord 0xF355 = .stRegs 3 ∧ decodeWord 0x812F = .undefined 0x812F

/-! ### Control transfer -/

/-- R111: 1NNN. -/
def Obligations.JumpSetsPc : Prop :=
  RowDecodes 0xF000 0x1000 (fun w => .jp (fieldNNN w)) ∧
  ∀ (nnn : Addr12) (s : State), ∃ t, exec (.jp nnn) s = .next t ∧
    t.pc.toNat = nnn.toNat ∧ OnlyChanges (fun p => p = .pc) s t

/-- R113: BNNN; the sum of NNN and V[0] is not reduced. -/
def Obligations.JumpWithOffsetAddsV0 : Prop :=
  RowDecodes 0xF000 0xB000 (fun w => .jpV0 (fieldNNN w)) ∧
  ∀ (nnn : Addr12) (s : State), ∃ t, exec (.jpV0 nnn) s = .next t ∧
    t.pc.toNat = nnn.toNat + (s.readV 0).toNat ∧ OnlyChanges (fun p => p = .pc) s t

/-- R112: 2NNN pushes npc and jumps; with twelve live entries it is STACK_OVERFLOW and nothing else is written (the halted state's
contents are the spec's decision D6, log 7). -/
def Obligations.CallPushesReturnAddress : Prop :=
  RowDecodes 0xF000 0x2000 (fun w => .call (fieldNNN w)) ∧
  (∀ (nnn : Addr12) (s : State) (h : s.sp.val < 12), ∃ t, exec (.call nnn) s = .next t ∧
    t.stack[s.sp.val] = s.npc ∧ t.sp.val = s.sp.val + 1 ∧ t.pc.toNat = nnn.toNat ∧
    OnlyChanges (fun p => p = .pc ∨ p = .sp ∨ p = .slot ⟨s.sp.val, h⟩) s t) ∧
  ∀ (nnn : Addr12) (s : State), s.sp.val = 12 →
    ∃ t, exec (.call nnn) s = .next t ∧ StoppedBy .stackOverflow 0 s t

/-- R110: 00EE pops the top slot into pc and leaves the slot as it is; with an empty stack it is STACK_UNDERFLOW (the
halted state's contents are the spec's decision D6, log 7; the ignored nibble is D10, log 13). -/
def Obligations.ReturnPopsStack : Prop :=
  RowDecodes 0xF0FF 0x00EE (fun w => .ret (fieldX w)) ∧
  (∀ (g : Nibble) (s : State) (d : Fin 12), s.sp.val = d.val + 1 → ∃ t, exec (.ret g) s = .next t ∧
    t.pc = s.stack[d] ∧ t.sp.val = d.val ∧ OnlyChanges (fun p => p = .pc ∨ p = .sp) s t) ∧
  ∀ (g : Nibble) (s : State), s.sp.val = 0 →
    ∃ t, exec (.ret g) s = .next t ∧ StoppedBy .stackUnderflow 0 s t

/-- R119 (an inference the spec marks as its own): a call, then any instructions that leave the depth and the pushed slot as the call
left them, then a return, leaves pc at the instruction after the call and the depth as it was. -/
def Obligations.CallThenReturnRoundTrip : Prop :=
  ∀ (nnn : Addr12) (g : Nibble) (s : State) (h : s.sp.val < 12), ∃ t, exec (.call nnn) s = .next t ∧
    ∀ u : State, u.sp = t.sp → u.stack[s.sp.val] = t.stack[s.sp.val] →
      ∃ v, exec (.ret g) u = .next v ∧ v.pc = s.pc + 2 ∧ v.sp = s.sp

/-- R114, R115: 3XNN and 4XNN. -/
def Obligations.SkipsComparingImmediate : Prop :=
  RowDecodes 0xF000 0x3000 (fun w => .seImm (fieldX w) (fieldNN w)) ∧
  RowDecodes 0xF000 0x4000 (fun w => .sneImm (fieldX w) (fieldNN w)) ∧
  ∀ (x : Nibble) (nn : Byte),
    SkipsWhen (.seImm x nn) (fun s => s.readV x = nn) ∧ SkipsWhen (.sneImm x nn) (fun s => s.readV x ≠ nn)

/-- R116, R117: 5XY_ and 9XY_, whatever the ignored nibble holds (that it is ignored is the spec's decision D10, log 13). -/
def Obligations.SkipsComparingRegisters : Prop :=
  RowDecodes 0xF000 0x5000 (fun w => .seReg (fieldX w) (fieldY w) (fieldN w)) ∧
  RowDecodes 0xF000 0x9000 (fun w => .sneReg (fieldX w) (fieldY w) (fieldN w)) ∧
  ∀ x y g : Nibble,
    SkipsWhen (.seReg x y g) (fun s => s.readV x = s.readV y) ∧
    SkipsWhen (.sneReg x y g) (fun s => s.readV x ≠ s.readV y)

/-- R96: an undefined word writes nothing but pc, which moves to npc. -/
def Obligations.UndefinedWordsDoNothing : Prop :=
  ∀ (w : Word) (s : State), (∀ r ∈ opcodeRows, w &&& r.mask ≠ r.key) →
    ∃ t, exec (decodeWord w) s = .next t ∧ decodeWord w = .undefined w ∧ t.pc = s.npc ∧
      OnlyChanges (fun p => p = .pc) s t

/-! ### Load, arithmetic, logic, shifts, random -/

/-- R130, R131: 6XNN and 7XNN; the carry of 7XNN is discarded. -/
def Obligations.ImmediateLoadAndAdd : Prop :=
  RowDecodes 0xF000 0x6000 (fun w => .ldImm (fieldX w) (fieldNN w)) ∧
  RowDecodes 0xF000 0x7000 (fun w => .addImm (fieldX w) (fieldNN w)) ∧
  ∀ (x : Nibble) (nn : Byte),
    WritesRegister (.ldImm x nn) x (fun _ => nn.toNat) ∧
    WritesRegister (.addImm x nn) x (fun s => ((s.readV x).toNat + nn.toNat) % 256)

/-- R132, R133, R134, R135: move, or, and, exclusive or; none of them writes VF but as its X. -/
def Obligations.MoveAndLogic : Prop :=
  RowDecodes 0xF00F 0x8000 (fun w => .ldReg (fieldX w) (fieldY w)) ∧
  RowDecodes 0xF00F 0x8001 (fun w => .orReg (fieldX w) (fieldY w)) ∧
  RowDecodes 0xF00F 0x8002 (fun w => .andReg (fieldX w) (fieldY w)) ∧
  RowDecodes 0xF00F 0x8003 (fun w => .xorReg (fieldX w) (fieldY w)) ∧
  ∀ x y : Nibble,
    WritesRegister (.ldReg x y) x (fun s => (s.readV y).toNat) ∧
    WritesRegister (.orReg x y) x (fun s => (s.readV x).toNat ||| (s.readV y).toNat) ∧
    WritesRegister (.andReg x y) x (fun s => (s.readV x).toNat &&& (s.readV y).toNat) ∧
    WritesRegister (.xorReg x y) x (fun s => (s.readV x).toNat ^^^ (s.readV y).toNat)

/-- R136: 8XY4, the sum mod 256 and the carry, both from the values before the instruction (latching, and the flag staying when X = 15,
are the spec's decision D5, log 11). -/
def Obligations.AddSetsCarry : Prop :=
  RowDecodes 0xF00F 0x8004 (fun w => .addReg (fieldX w) (fieldY w)) ∧
  ∀ x y : Nibble, WritesResultThenFlag (.addReg x y) x
    (fun s => ((s.readV x).toNat + (s.readV y).toNat) % 256)
    (fun s => 255 < (s.readV x).toNat + (s.readV y).toNat)

/-- R137, R139: 8XY5 and 8XY7, the difference mod 256 and the no-borrow flag (latching, and the result staying when X = 15, are the
spec's decision D5, log 11). -/
def Obligations.SubtractSetsNoBorrow : Prop :=
  RowDecodes 0xF00F 0x8005 (fun w => .subReg (fieldX w) (fieldY w)) ∧
  RowDecodes 0xF00F 0x8007 (fun w => .subnReg (fieldX w) (fieldY w)) ∧
  ∀ x y : Nibble,
    WritesFlagThenResult (.subReg x y) x
      (fun s => ((s.readV x).toNat + 256 - (s.readV y).toNat) % 256)
      (fun s => (s.readV y).toNat ≤ (s.readV x).toNat) ∧
    WritesFlagThenResult (.subnReg x y) x
      (fun s => ((s.readV y).toNat + 256 - (s.readV x).toNat) % 256)
      (fun s => (s.readV x).toNat ≤ (s.readV y).toNat)

/-- R138, R140: 8XY6 and 8XYE shift V[Y] by one; VF is the bit shifted out (the result staying when X = 15 is the spec's decision D5, log
11). -/
def Obligations.ShiftsMoveVyIntoVx : Prop :=
  RowDecodes 0xF00F 0x8006 (fun w => .shr (fieldX w) (fieldY w)) ∧
  RowDecodes 0xF00F 0x800E (fun w => .shl (fieldX w) (fieldY w)) ∧
  ∀ x y : Nibble,
    WritesFlagThenResult (.shr x y) x (fun s => (s.readV y).toNat / 2) (fun s => (s.readV y).toNat % 2 = 1) ∧
    WritesFlagThenResult (.shl x y) x (fun s => (s.readV y).toNat * 2 % 256) (fun s => 128 ≤ (s.readV y).toNat)

/-- R143: CXNN writes the input byte of its Step under the mask NN: bits of V[X] that are 0 in NN are 0. The byte is any byte: the
statement is about every state, so about every value of the input (how a Step brings it: StepBringsRandomByte). -/
def Obligations.RandomIsMaskedDraw : Prop :=
  RowDecodes 0xF000 0xC000 (fun w => .rnd (fieldX w) (fieldNN w)) ∧
  ∀ (x : Nibble) (nn : Byte) (s : State), ∃ t, exec (.rnd x nn) s = .next t ∧
    t.readV x = s.outside.rnd &&& nn ∧ (∀ k, nn.getLsbD k = false → (t.readV x).getLsbD k = false) ∧ t.pc = s.npc ∧
    OnlyChanges (fun p => p = .pc ∨ p = .v x) s t

/-! ### The address register and memory -/

/-- R150, R151, R152: ANNN, FX1E, FX29. FX1E wraps at 65536 and FX29 takes the whole register value (the spec's decisions D8, D21;
logs 17, 18). -/
def Obligations.AddressRegisterWrites : Prop :=
  RowDecodes 0xF000 0xA000 (fun w => .ldI (fieldNNN w)) ∧
  RowDecodes 0xF0FF 0xF01E (fun w => .addI (fieldX w)) ∧
  RowDecodes 0xF0FF 0xF029 (fun w => .ldF (fieldX w)) ∧
  ∀ (nnn : Addr12) (x : Nibble) (s : State),
    (∃ t, exec (.ldI nnn) s = .next t ∧ t.i.toNat = nnn.toNat ∧ t.pc = s.npc ∧
      OnlyChanges (fun p => p = .pc ∨ p = .i) s t) ∧
    (∃ t, exec (.addI x) s = .next t ∧ t.i.toNat = (s.i.toNat + (s.readV x).toNat) % 65536 ∧ t.pc = s.npc ∧
      OnlyChanges (fun p => p = .pc ∨ p = .i) s t) ∧
    ∃ t, exec (.ldF x) s = .next t ∧ t.i.toNat = (s.readV x).toNat * 5 ∧ t.pc = s.npc ∧
      OnlyChanges (fun p => p = .pc ∨ p = .i) s t

/-- R153: FX33 stores the three decimal digits at I, I + 1, I + 2, or, when one of them is out of range, stops with MEM_RANGE
(the halted state's contents and that addresses do not wrap are the spec's decisions D6, D8; logs 7, 17). -/
def Obligations.BcdStoresDigits : Prop :=
  RowDecodes 0xF0FF 0xF033 (fun w => .ldB (fieldX w)) ∧
  ∀ (x : Nibble) (s : State),
    (s.i.toNat + 2 < 4096 → ∃ t, exec (.ldB x) s = .next t ∧
      (t.mem.read (s.effAddr 0)).toNat = (s.readV x).toNat / 100 ∧
      (t.mem.read (s.effAddr 1)).toNat = (s.readV x).toNat / 10 % 10 ∧
      (t.mem.read (s.effAddr 2)).toNat = (s.readV x).toNat % 10 ∧ t.pc = s.npc ∧
      OnlyChanges (fun p => p = .pc ∨ ∃ k, k < 3 ∧ p = .mem (s.effAddr k)) s t) ∧
    (4096 ≤ s.i.toNat + 2 → ∃ t, exec (.ldB x) s = .next t ∧ StoppedBy .memRange (max s.i.toNat 4096) s t)

/-- R154: FX55 stores V[0] to V[X] at I to I + X and leaves I and the registers, or, when one address is out of range, stops with
MEM_RANGE and stores nothing (that I stays, the halted state's contents, no wrap: the spec's decisions D15, D6, D8; logs 18, 7, 17). -/
def Obligations.StoreRegistersAtI : Prop :=
  RowDecodes 0xF0FF 0xF055 (fun w => .stRegs (fieldX w)) ∧
  ∀ (x : Nibble) (s : State),
    (s.i.toNat + x.toNat < 4096 → ∃ t, exec (.stRegs x) s = .next t ∧
      (∀ r : Nibble, r.toNat ≤ x.toNat → t.mem.read (s.effAddr r.toNat) = s.readV r) ∧ t.pc = s.npc ∧
      OnlyChanges (fun p => p = .pc ∨ ∃ k, k ≤ x.toNat ∧ p = .mem (s.effAddr k)) s t) ∧
    (4096 ≤ s.i.toNat + x.toNat →
      ∃ t, exec (.stRegs x) s = .next t ∧ StoppedBy .memRange (max s.i.toNat 4096) s t)

/-- R155: FX65 loads V[0] to V[X] from I to I + X, leaves I, memory and the registers above X, or, when one address is out of range,
stops with MEM_RANGE and loads nothing (the spec's decisions D15, D6, D8; logs 18, 7, 17). -/
def Obligations.LoadRegistersFromI : Prop :=
  RowDecodes 0xF0FF 0xF065 (fun w => .ldRegs (fieldX w)) ∧
  ∀ (x : Nibble) (s : State),
    (s.i.toNat + x.toNat < 4096 → ∃ t, exec (.ldRegs x) s = .next t ∧
      (∀ r : Nibble, r.toNat ≤ x.toNat → t.readV r = s.mem.read (s.effAddr r.toNat)) ∧ t.pc = s.npc ∧
      OnlyChanges (fun p => p = .pc ∨ ∃ r : Nibble, r.toNat ≤ x.toNat ∧ p = .v r) s t) ∧
    (4096 ≤ s.i.toNat + x.toNat →
      ∃ t, exec (.ldRegs x) s = .next t ∧ StoppedBy .memRange (max s.i.toNat 4096) s t)

/-- R154, R155 (vector M22): FX65 after FX55 gives the low registers back, whatever happened to the registers in between. -/
def Obligations.LoadAfterStoreRestoresRegisters : Prop :=
  ∀ (x : Nibble) (s : State), s.i.toNat + x.toNat < 4096 → ∃ t, exec (.stRegs x) s = .next t ∧
    ∀ u : State, u.mem = t.mem → u.i = t.i → ∃ v, exec (.ldRegs x) u = .next v ∧
      ∀ r : Nibble, v.readV r = if r.toNat ≤ x.toNat then s.readV r else u.readV r

/-- R54, R64: a word stored by FX55 as the bytes V[0], V[1] over the next instruction is what the very next Step executes
(the spec's decision D16, log 18). -/
def Obligations.StoredWordIsExecutedNext : Prop :=
  ∀ (x : Nibble) (b : Byte) (s : State), 1 ≤ x.toNat → s.i = s.npc → s.i.toNat + x.toNat < 4096 →
    s.halt = .running → s.fsm = .ready → s.nextEvent = .step b →
    ∃ t, exec (.stRegs x) s = .next t ∧ step t = exec (decodeWord (wordOfBytes (s.readV 0) (s.readV 1))) t.takeEvent

/-! ### Display -/

/-- R171: 00E0 turns every pixel off and writes no flag (the ignored nibble is the spec's decision D10, log 13). -/
def Obligations.ClearScreenTurnsPixelsOff : Prop :=
  RowDecodes 0xF0FF 0x00E0 (fun w => .cls (fieldX w)) ∧
  ∀ (g : Nibble) (s : State), ∃ t, exec (.cls g) s = .next t ∧ (∀ px py, t.fb.pixel px py = false) ∧ t.pc = s.npc ∧
    OnlyChanges (fun p => p = .pc ∨ ∃ px py, p = .pixel px py) s t

/-- R172: DXYN flips exactly the pixels under a sprite bit that is 1; VF is 1 when one of them was on, else 0; V[X] and V[Y] are the
values before VF is written. When a row that is drawn lies out of range it stops with MEM_RANGE, nothing drawn (clipping and
what is checked are the spec's decision D13, the halted state's contents D6; logs 15, 7). -/
def Obligations.DrawFlipsPixelsUnderSprite : Prop :=
  RowDecodes 0xF000 0xD000 (fun w => .drw (fieldX w) (fieldY w) (fieldN w)) ∧
  ∀ (x y n : Nibble) (s : State),
    (spriteRows s y n = 0 ∨ s.i.toNat + spriteRows s y n ≤ 4096 → ∃ t, exec (.drw x y n) s = .next t ∧
      (∀ px py, t.fb.pixel px py = (s.fb.pixel px py ^^ spriteBit s x y n px py)) ∧
      ((∃ px py, s.fb.pixel px py = true ∧ spriteBit s x y n px py = true) → t.readV vf = 1) ∧
      ((∀ px py, s.fb.pixel px py = true → spriteBit s x y n px py = false) → t.readV vf = 0) ∧ t.pc = s.npc ∧
      OnlyChanges (fun p => p = .pc ∨ p = .v vf ∨ ∃ px py, spriteBit s x y n px py = true ∧ p = .pixel px py) s t) ∧
    (0 < spriteRows s y n → 4096 < s.i.toNat + spriteRows s y n →
      ∃ t, exec (.drw x y n) s = .next t ∧ StoppedBy .memRange (max s.i.toNat 4096) s t)

/-- R175 (an inference the spec marks as its own): drawing the same sprite bytes again at the same coordinates restores every pixel,
and VF is then 1 exactly when the first draw turned a pixel on. -/
def Obligations.DrawingTwiceRestoresPixels : Prop :=
  ∀ (x y n : Nibble) (s : State), spriteRows s y n = 0 ∨ s.i.toNat + spriteRows s y n ≤ 4096 →
    ∃ t, exec (.drw x y n) s = .next t ∧
      ∀ (x' y' : Nibble) (u : State), u.fb = t.fb → u.mem = s.mem → u.i = s.i →
        u.readV x' = s.readV x → u.readV y' = s.readV y →
        ∃ v, exec (.drw x' y' n) u = .next v ∧ v.fb = s.fb ∧
          (v.readV vf = 1 ↔ ∃ px py, s.fb.pixel px py = false ∧ t.fb.pixel px py = true)

/-! ### Keypad and timers -/

/-- R190, R191: EX9E and EXA1 test the key numbered by the low nibble of V[X] (the spec's decision D11, log 14). -/
def Obligations.SkipsOnKeyState : Prop :=
  RowDecodes 0xF0FF 0xE09E (fun w => .skp (fieldX w)) ∧
  RowDecodes 0xF0FF 0xE0A1 (fun w => .sknp (fieldX w)) ∧
  ∀ x : Nibble,
    SkipsWhen (.skp x) (fun s => s.key.getLsbD ((s.readV x).toNat % 16) = true) ∧
    SkipsWhen (.sknp x) (fun s => s.key.getLsbD ((s.readV x).toNat % 16) = false)

/-- R192: the Step that fetches FX0A: pc stays; with no key down nothing changes; else the lowest pressed key and X are latched and
the core waits (the choice of the lowest key is the spec's decision D12, log 12). -/
def Obligations.WaitForKeyLatchesLowestKey : Prop :=
  RowDecodes 0xF0FF 0xF00A (fun w => .ldVxK (fieldX w)) ∧
  ∀ (x : Nibble) (s : State),
    ((∀ k : Nibble, s.keyDown k = false) → exec (.ldVxK x) s = .next s) ∧
    ∀ k : Nibble, s.keyDown k = true → (∀ j : Nibble, j.toNat < k.toNat → s.keyDown j = false) →
      ∃ t, exec (.ldVxK x) s = .next t ∧ t.fsm = .awaitRelease ∧ t.wk = k ∧ t.wx = x ∧ t.pc = s.pc ∧
        OnlyChanges (fun p => p = .fsm ∨ p = .wk ∨ p = .wx) s t

/-- R97: a Step while a key's release is awaited fetches nothing; when the key is up its number goes to V[wx], pc moves on by 2 and
the core is READY; while it is down nothing changes (the spec's decision D12, log 12). -/
def Obligations.AwaitingStepEndsAtRelease : Prop :=
  ∀ (b : Byte) (s : State), s.nextEvent = .step b → s.halt = .running → s.fsm = .awaitRelease →
    (s.keyDown s.wk = true → step s = .next s.takeEvent) ∧
    (s.keyDown s.wk = false → ∃ t, step s = .next t ∧ (t.readV s.wx).toNat = s.wk.toNat ∧ t.pc = s.pc + 2 ∧
      t.fsm = .ready ∧ OnlyChanges (fun p => p = .pc ∨ p = .fsm ∨ p = .v s.wx) s.takeEvent t)

/-- R192, R97: FX0A as a program sees it: a key is down, later, whatever Ticks and key events came between, that key is up, and its
number is in V[X] and pc past the instruction (the spec's decision D12, log 12). -/
def Obligations.WaitForKeyDeliversKeyNumber : Prop :=
  ∀ (x k : Nibble) (s : State), s.halt = .running → s.keyDown k = true →
    (∀ j : Nibble, j.toNat < k.toNat → s.keyDown j = false) →
    ∃ t, exec (.ldVxK x) s = .next t ∧
      ∀ (b : Byte) (u : State), CoreOnlyChanges (fun p => p = .dt ∨ p = .st ∨ ∃ j, p = .key j) t u →
        u.nextEvent = .step b → u.keyDown k = false →
        ∃ v, step u = .next v ∧ (v.readV x).toNat = k.toNat ∧ v.pc = s.pc + 2 ∧ v.fsm = .ready

/-- R193, R194, R195: FX07, FX15, FX18; `sound_on` follows ST. -/
def Obligations.TimerAccess : Prop :=
  RowDecodes 0xF0FF 0xF007 (fun w => .ldVxDt (fieldX w)) ∧
  RowDecodes 0xF0FF 0xF015 (fun w => .ldDtVx (fieldX w)) ∧
  RowDecodes 0xF0FF 0xF018 (fun w => .ldStVx (fieldX w)) ∧
  ∀ x : Nibble,
    WritesRegister (.ldVxDt x) x (fun s => s.dt.toNat) ∧
    ∀ s : State,
      (∃ t, exec (.ldDtVx x) s = .next t ∧ t.dt = s.readV x ∧ t.pc = s.npc ∧
        OnlyChanges (fun p => p = .pc ∨ p = .dt) s t) ∧
      ∃ t, exec (.ldStVx x) s = .next t ∧ t.st = s.readV x ∧ (t.soundOn = true ↔ 0 < (s.readV x).toNat) ∧
        t.pc = s.npc ∧ OnlyChanges (fun p => p = .pc ∨ p = .st) s t

/-! ### Steps and events -/

/-- R92, R53: a running, READY core whose pc is in range runs the instruction that the two bytes at pc spell, the first one high, in
the state as it is (what the model adds is that the event is taken from the host, log 6). -/
def Obligations.StepRunsDecodedInstruction : Prop :=
  ∀ (b : Byte) (s : State) (i : Instr) (rest : List Byte), s.nextEvent = .step b → s.halt = .running → s.fsm = .ready →
    s.pc.toNat ≤ 4094 →
    decode [s.mem.read s.pc.toNat, s.mem.read (s.pc.toNat + 1)] = .ok (i, rest) →
    step s = exec i s.takeEvent

/-- R53, R211: a fetch at 4095 or above is MEM_RANGE, at 4096 or at pc, whichever is higher; pc keeps the address it was tried at (no
wrap and the halted state's contents are the spec's decisions D8, D6; logs 17, 7). -/
def Obligations.FetchOutOfRangeStops : Prop :=
  ∀ (b : Byte) (s : State), s.nextEvent = .step b → s.halt = .running → s.fsm = .ready → 4095 ≤ s.pc.toNat →
    ∃ t, step s = .next t ∧ StoppedBy .memRange (max s.pc.toNat 4096) s.takeEvent t

/-- R215: once halted, Step, Tick and Present change nothing, SetKey still writes its key bit and nothing else, and only a Reset
changes `halt` (the spec's decision D7, log 16). -/
def Obligations.HaltedCoreStaysHalted : Prop :=
  ∀ s : State, s.halt ≠ .running →
    ((∃ b, s.nextEvent = .step b) ∨ s.nextEvent = .tick ∨ s.nextEvent = .present → step s = .next s.takeEvent) ∧
    (∀ k p, s.nextEvent = .setKey k p → ∃ t, step s = .next t ∧ t.keyDown k = p ∧
      OnlyChanges (fun q => q = .key k) s.takeEvent t) ∧
    ∀ t, step s = .next t → t.halt ≠ s.halt → ∃ p img, s.nextEvent = .reset p img

/-- R98: Tick counts each timer down by one, stopping at 0, in READY and while a key is awaited, and touches nothing else
(the spec's decision D20, log 16). -/
def Obligations.TickCountsTimersDown : Prop :=
  ∀ s : State, s.nextEvent = .tick → s.halt = .running →
    ∃ t, step s = .next t ∧ t.dt.toNat = s.dt.toNat - 1 ∧ t.st.toNat = s.st.toNat - 1 ∧
      OnlyChanges (fun p => p = .dt ∨ p = .st) s.takeEvent t

/-- R98, R197: any number of Ticks in a row take a timer down by that number and leave it at 0 from then on. -/
def Obligations.TicksDecayTimersToZero : Prop :=
  ∀ (n : Nat) (s : State), s.halt = .running →
    ∃ t, runSteps n { s with outside := { s.outside with pending := List.replicate n .tick } } = .next t ∧
      t.dt.toNat = s.dt.toNat - n ∧ t.st.toNat = s.st.toNat - n ∧ (t.soundOn = true ↔ n < s.st.toNat)

/-- R99: SetKey writes one key bit and nothing else, in every state. -/
def Obligations.SetKeyWritesOneBit : Prop :=
  ∀ (s : State) (k : Nibble) (p : Bool), s.nextEvent = .setKey k p →
    ∃ t, step s = .next t ∧ t.keyDown k = p ∧ OnlyChanges (fun q => q = .key k) s.takeEvent t

/-- R100: Present changes no state; what it shows is the frame buffer, 64 by 32 pixels. -/
def Obligations.PresentChangesNothing : Prop :=
  ∀ s : State, s.nextEvent = .present → step s = .next s.takeEvent ∧
    ∀ px py, FrameBuffer.pixel s.snapshot px py = s.fb.pixel px py ∧
      (64 ≤ px ∨ 32 ≤ py → FrameBuffer.pixel s.snapshot px py = false)

/-- R240: Reset with an image that fits, for every value of the parameters: memory is the image at PROGRAM_ORIGIN, the font at 0 to 79
and zero elsewhere, and every other field has its reset value, whatever the state before (the zeros of V, I, stack, wk and wx are the
spec's decision D4, log 1). What stands outside the core is no concern of it. -/
def Obligations.ResetLoadsImage : Prop :=
  ∀ (s : State) (p : Config.Params) (img : List Byte), s.nextEvent = .reset p img →
    img.length ≤ 4096 - p.origin.toNat →
    ∃ t, step s = .next t ∧
      (∀ a < 4096, t.mem.read a =
        if h : a < 80 then p.font[a]
        else if h : p.origin.toNat ≤ a ∧ a - p.origin.toNat < img.length then img[a - p.origin.toNat] else 0) ∧
      t.pc.toNat = p.origin.toNat ∧ t.sp.val = 0 ∧ (∀ k : Fin 12, t.stack[k] = 0) ∧
      (∀ r, t.readV r = 0) ∧ t.i = 0 ∧ t.dt = 0 ∧ t.st = 0 ∧ (∀ px py, t.fb.pixel px py = false) ∧
      (∀ k, t.keyDown k = false) ∧ t.fsm = .ready ∧ t.wk = 0 ∧ t.wx = 0 ∧ t.halt = .running ∧ t.errAddr = 0 ∧
      t.outside = s.takeEvent.outside

/-- R241: Reset with an image that does not fit halts the core with IMAGE_TOO_LARGE and copies none of the image; every other field is
as after the Reset with the empty image (the spec's decision D18, log 8). -/
def Obligations.ResetRejectsLargeImage : Prop :=
  ∀ (s u : State) (p : Config.Params) (img : List Byte), s.nextEvent = .reset p img →
    4096 - p.origin.toNat < img.length →
    step { s with outside := { s.outside with pending := .reset p [] :: s.outside.pending.tail } } = .next u →
    ∃ t, step s = .next t ∧ StoppedBy .imageTooLarge 0 u t

/-- R240: Reset depends on nothing of the earlier state: two Resets with the same parameters and image give the same state of the
core. -/
def Obligations.ResetForgetsEarlierState : Prop :=
  ∀ (s s' : State) (p : Config.Params) (img : List Byte), s.nextEvent = .reset p img → s'.nextEvent = .reset p img →
    ∃ t t', step s = .next t ∧ step s' = .next t' ∧ t.toCoreState = t'.toCoreState

/-- R35, R57: the machine right after reset, the model's fixed start: the Reset of the empty image with the default parameters. The
origin 0x200 and the font bytes are defaults from general knowledge (logs 2, 3). -/
def Obligations.ResetStateIsEmptyImageReset : Prop :=
  step { State.reset with outside := { State.reset.outside with pending := [.reset Config.Params.standard []] } } =
    .next State.reset ∧
  State.reset.pc = 0x200 ∧ State.reset.halt = .running ∧ State.reset.fsm = .ready ∧ State.reset.sp = 0 ∧
  (∀ a, 80 ≤ a → State.reset.mem.read a = 0) ∧
  [0x23, 0x24, 0x25, 0x26, 0x27].map State.reset.mem.read = [0xF0, 0x10, 0x20, 0x40, 0x40]

/-- R240: the first instruction a core executes after Reset is the one its image begins with. -/
def Obligations.LoadedImageRunsFromItsFirstWord : Prop :=
  ∀ (s : State) (p : Config.Params) (i : Instr) (rest : List Byte), i.wf = true →
    s.nextEvent = .reset p (encodeBytes i ++ rest) → (encodeBytes i ++ rest).length ≤ 4096 - p.origin.toNat →
    ∃ t, step s = .next t ∧ ∀ b, t.nextEvent = .step b → step t = exec i t.takeEvent

/-- How the model places a program (log 20): the very next step after `withFetchWord` runs the instruction of the word given. -/
def Obligations.FetchWordIsRunNext : Prop :=
  ∀ (s : State) (w : Nat), w < 65536 →
    step (s.withFetchWord 16 w) = exec (decodeWord (BitVec.ofNat 16 w)) (s.withFetchWord 16 w).takeEvent

/-! ### Whole-machine rules -/

/-- R101: every event is total: from every state a step answers a next state, no fault and no refusal. -/
def Obligations.EveryStepAnswersNext : Prop := ∀ s : State, ∃ t, step s = .next t

/-- R103 (an inference the spec marks as its own), R213: an instruction does all it does and leaves `halt` and `err_addr` alone, or it
stops the core and writes nothing else (the spec's decision D6, log 7). -/
def Obligations.InstructionsAreAllOrNothing : Prop :=
  ∀ (i : Instr) (s : State), s.halt = .running → ∃ t, exec i s = .next t ∧
    ((t.halt = .running ∧ t.errAddr = s.errAddr) ∨
      ∃ cause addr, cause ≠ .running ∧ addr < 65536 ∧ StoppedBy cause addr s t)

/-- R211: which instruction stops the core, with which cause, exactly when (the cause codes are the spec's decision D6, log 7). -/
def Obligations.FatalConditionsExactlyWhen : Prop :=
  ∀ (i : Instr) (s t : State), s.halt = .running → exec i s = .next t →
    (t.halt = .stackUnderflow ↔ ∃ g, i = .ret g ∧ s.sp.val = 0) ∧
    (t.halt = .stackOverflow ↔ ∃ nnn, i = .call nnn ∧ s.sp.val = 12) ∧
    (t.halt = .memRange ↔
      (∃ x y n, i = .drw x y n ∧ 0 < spriteRows s y n ∧ 4096 ≤ s.i.toNat + spriteRows s y n - 1) ∨
      (∃ x, i = .ldB x ∧ 4096 ≤ s.i.toNat + 2) ∨
      (∃ x, i = .stRegs x ∧ 4096 ≤ s.i.toNat + x.toNat) ∨
      ∃ x, i = .ldRegs x ∧ 4096 ≤ s.i.toNat + x.toNat) ∧
    t.halt ≠ .imageTooLarge

/-- R36, the column "written by", for instructions: each store is changed by no instruction but those its row names; the keys, and what
stands outside the core, by none. -/
def Obligations.EachStoreHasItsWriters : Prop :=
  ∀ (i : Instr) (s t : State), exec i s = .next t →
    (t.i ≠ s.i → (∃ nnn, i = .ldI nnn) ∨ (∃ x, i = .addI x) ∨ ∃ x, i = .ldF x) ∧
    (t.stack ≠ s.stack → ∃ nnn, i = .call nnn) ∧
    (t.sp ≠ s.sp → (∃ g, i = .ret g) ∨ ∃ nnn, i = .call nnn) ∧
    (t.dt ≠ s.dt → ∃ x, i = .ldDtVx x) ∧
    (t.st ≠ s.st → ∃ x, i = .ldStVx x) ∧
    (t.fb ≠ s.fb → (∃ g, i = .cls g) ∨ ∃ x y n, i = .drw x y n) ∧
    (t.mem ≠ s.mem → (∃ x, i = .ldB x) ∨ ∃ x, i = .stRegs x) ∧
    (t.fsm ≠ s.fsm ∨ t.wk ≠ s.wk ∨ t.wx ≠ s.wx → ∃ x, i = .ldVxK x) ∧
    t.key = s.key ∧ t.outside = s.outside

/-- R22: VF changes only under the six flag-writing instructions, or as the register an instruction names as its target. -/
def Obligations.VfWritersAreListed : Prop :=
  ∀ (i : Instr) (s t : State), exec i s = .next t → t.readV vf ≠ s.readV vf →
    (∃ x y, i = .addReg x y ∨ i = .subReg x y ∨ i = .shr x y ∨ i = .subnReg x y ∨ i = .shl x y) ∨
    (∃ x y n, i = .drw x y n) ∨
    (∃ nn, i = .ldImm vf nn ∨ i = .addImm vf nn ∨ i = .rnd vf nn) ∨
    (∃ y, i = .ldReg vf y ∨ i = .orReg vf y ∨ i = .andReg vf y ∨ i = .xorReg vf y) ∨
    i = .ldVxDt vf ∨ i = .ldRegs vf

/-- R118: what each instruction that completes writes to pc: npc, but for the control transfers, the skips and FX0A. -/
def Obligations.OnlyControlTransfersLeaveSequence : Prop :=
  ∀ (i : Instr) (s t : State), s.halt = .running → exec i s = .next t → t.halt = .running → t.pc ≠ s.npc →
    (t.pc = s.npc + 2 ∧ ((∃ x nn, i = .seImm x nn ∨ i = .sneImm x nn) ∨ (∃ x y g, i = .seReg x y g ∨ i = .sneReg x y g) ∨
      ∃ x, i = .skp x ∨ i = .sknp x)) ∨
    (∃ nnn, i = .jp nnn ∨ i = .call nnn ∨ i = .jpV0 nnn) ∨ (∃ g, i = .ret g) ∨
    (t.pc = s.pc ∧ ∃ x, i = .ldVxK x)

/-- The memory's list is canonical data (log 4): two canonical memories that read alike at every address are equal. -/
def Obligations.CanonicalMemoriesReadingAlikeAreEqual : Prop :=
  ∀ m m' : Memory, m.wf = true → m'.wf = true → (∀ a, m.read a = m'.read a) → m = m'

/-! ### The invariant -/

/-- The invariant holds of the machine right after reset. -/
def Obligations.InvariantAtReset : Prop := State.reset.Inv

/-- R24, R25, R106, R210: every step keeps the invariant, whatever event comes next: canonical memory, pc at most 0x10FE, return
addresses at most 4096, a waiting core running and its pc on a fetched instruction, `err_addr` set exactly under MEM_RANGE. -/
def Obligations.EveryStepKeepsInvariant : Prop :=
  ∀ s t : State, s.Inv → step s = .next t → t.Inv

/-! ### The core and its inputs -/

/-- R90, R91, R92, R143: a Step(rnd) of a running, READY core that fetches CXNN leaves rnd & NN in V[X], for the very byte rnd that the
event brought, and changes nothing else of the core but pc. -/
def Obligations.StepBringsRandomByte : Prop :=
  ∀ (b : Byte) (x : Nibble) (nn : Byte) (s : State), s.nextEvent = .step b → s.halt = .running → s.fsm = .ready →
    s.pc.toNat ≤ 4094 → decodeWord (s.mem.readWord s.pc.toNat) = .rnd x nn →
    ∃ t, step s = .next t ∧ t.readV x = b &&& nn ∧ t.pc = s.npc ∧ OnlyChanges (fun p => p = .pc ∨ p = .v x) s.takeEvent t

/-- R20, R34, R90, R101: what an event leaves of the core is fixed by the fields of R20 and by the event with its arguments: the core
holds nothing else, no generator of random bytes among it. What stands outside moves only as the event is raised (log 6). -/
def Obligations.EventsAreFunctionsOfTheCore : Prop :=
  ∀ s s' : State, s.toCoreState = s'.toCoreState → s.nextEvent = s'.nextEvent →
    ∃ t t', step s = .next t ∧ step s' = .next t' ∧ t.toCoreState = t'.toCoreState ∧
      t.outside = s.outside.raised ∧ t'.outside = s'.outside.raised

/-- R6, R57: after a Reset, whatever the parameters and the image, the glyph table lies at 0 to 79 as the parameter gives it: the
program region never overlaps it. -/
def Obligations.ResetKeepsGlyphTable : Prop :=
  ∀ (s : State) (p : Config.Params) (img : List Byte), s.nextEvent = .reset p img →
    80 ≤ p.origin.toNat ∧ p.origin.toNat < 4096 ∧
    ∃ t, step s = .next t ∧ ∀ a : Fin 80, t.mem.read a.val = p.font[a]
end

