-- ==== Sys2Proof/Laws/Decode.lean ====
section
/-! SUPPORT. What proofs about decoding cite: the fields of a packed word, a word from its fields, the decoder bits a mask of
spec/30_encoding.md R76 looks at, and for each row of R76 that a word matching it decodes to that row's instruction. -/

namespace Sys2Proof

/-! ### Numbers and fields -/

theorem toNat_append_eq {n m : Nat} (a : BitVec n) (b : BitVec m) : (a ++ b).toNat = a.toNat * 2 ^ m + b.toNat := by
  rw [BitVec.toNat_append, ← Nat.shiftLeft_add_eq_or_of_lt b.isLt, Nat.shiftLeft_eq]

theorem toNat_packNibbles (a b c d : Nibble) :
    (packNibbles a b c d).toNat = a.toNat * 4096 + b.toNat * 256 + c.toNat * 16 + d.toNat := by
  simp only [packNibbles, toNat_append_eq]; omega

theorem toNat_packByte (op x : Nibble) (nn : Byte) :
    (packByte op x nn).toNat = op.toNat * 4096 + x.toNat * 256 + nn.toNat := by
  simp only [packByte, toNat_append_eq]; omega

theorem toNat_packAddr (op : Nibble) (nnn : Addr12) : (packAddr op nnn).toNat = op.toNat * 4096 + nnn.toNat :=
  toNat_append_eq op nnn

/-- The fetched word of two bytes, the first one high (R53). -/
theorem toNat_wordOfBytes (hi lo : Byte) : (wordOfBytes hi lo).toNat = hi.toNat * 256 + lo.toNat :=
  toNat_append_eq hi lo

theorem toNat_fieldOp (w : Word) : (fieldOp w).toNat = w.toNat / 4096 % 16 := by
  simp [fieldOp, BitVec.extractLsb'_toNat, Nat.shiftRight_eq_div_pow]

theorem toNat_fieldX (w : Word) : (fieldX w).toNat = w.toNat / 256 % 16 := by
  simp [fieldX, BitVec.extractLsb'_toNat, Nat.shiftRight_eq_div_pow]

theorem toNat_fieldY (w : Word) : (fieldY w).toNat = w.toNat / 16 % 16 := by
  simp [fieldY, BitVec.extractLsb'_toNat, Nat.shiftRight_eq_div_pow]

theorem toNat_fieldN (w : Word) : (fieldN w).toNat = w.toNat % 16 := by
  simp [fieldN, BitVec.extractLsb'_toNat, Nat.shiftRight_eq_div_pow]

theorem toNat_fieldNN (w : Word) : (fieldNN w).toNat = w.toNat % 256 := by
  simp [fieldNN, BitVec.extractLsb'_toNat, Nat.shiftRight_eq_div_pow]

theorem toNat_fieldNNN (w : Word) : (fieldNNN w).toNat = w.toNat % 4096 := by
  simp [fieldNNN, BitVec.extractLsb'_toNat, Nat.shiftRight_eq_div_pow]

/-! ### Fields of packed words -/

@[simp] theorem fieldOp_packNibbles (a : Nibble) (b : Nibble) (c : Nibble) (d : Nibble) : fieldOp (packNibbles a b c d) = a := by
  apply BitVec.eq_of_toNat_eq
  rw [toNat_fieldOp, toNat_packNibbles]; have := a.isLt; have := b.isLt; have := c.isLt; have := d.isLt; omega

@[simp] theorem fieldX_packNibbles (a : Nibble) (b : Nibble) (c : Nibble) (d : Nibble) : fieldX (packNibbles a b c d) = b := by
  apply BitVec.eq_of_toNat_eq
  rw [toNat_fieldX, toNat_packNibbles]; have := a.isLt; have := b.isLt; have := c.isLt; have := d.isLt; omega

@[simp] theorem fieldY_packNibbles (a : Nibble) (b : Nibble) (c : Nibble) (d : Nibble) : fieldY (packNibbles a b c d) = c := by
  apply BitVec.eq_of_toNat_eq
  rw [toNat_fieldY, toNat_packNibbles]; have := a.isLt; have := b.isLt; have := c.isLt; have := d.isLt; omega

@[simp] theorem fieldN_packNibbles (a : Nibble) (b : Nibble) (c : Nibble) (d : Nibble) : fieldN (packNibbles a b c d) = d := by
  apply BitVec.eq_of_toNat_eq
  rw [toNat_fieldN, toNat_packNibbles]; have := a.isLt; have := b.isLt; have := c.isLt; have := d.isLt; omega

@[simp] theorem fieldOp_packByte (op : Nibble) (x : Nibble) (nn : Byte) : fieldOp (packByte op x nn) = op := by
  apply BitVec.eq_of_toNat_eq
  rw [toNat_fieldOp, toNat_packByte]; have := op.isLt; have := x.isLt; have := nn.isLt; omega

@[simp] theorem fieldX_packByte (op : Nibble) (x : Nibble) (nn : Byte) : fieldX (packByte op x nn) = x := by
  apply BitVec.eq_of_toNat_eq
  rw [toNat_fieldX, toNat_packByte]; have := op.isLt; have := x.isLt; have := nn.isLt; omega

@[simp] theorem fieldNN_packByte (op : Nibble) (x : Nibble) (nn : Byte) : fieldNN (packByte op x nn) = nn := by
  apply BitVec.eq_of_toNat_eq
  rw [toNat_fieldNN, toNat_packByte]; have := op.isLt; have := x.isLt; have := nn.isLt; omega

@[simp] theorem fieldOp_packAddr (op : Nibble) (nnn : Addr12) : fieldOp (packAddr op nnn) = op := by
  apply BitVec.eq_of_toNat_eq
  rw [toNat_fieldOp, toNat_packAddr]; have := op.isLt; have := nnn.isLt; omega

@[simp] theorem fieldNNN_packAddr (op : Nibble) (nnn : Addr12) : fieldNNN (packAddr op nnn) = nnn := by
  apply BitVec.eq_of_toNat_eq
  rw [toNat_fieldNNN, toNat_packAddr]; have := op.isLt; have := nnn.isLt; omega

/-! ### A word from its fields -/

theorem packNibbles_fields (w : Word) : packNibbles (fieldOp w) (fieldX w) (fieldY w) (fieldN w) = w := by
  apply BitVec.eq_of_toNat_eq
  rw [toNat_packNibbles, toNat_fieldOp, toNat_fieldX, toNat_fieldY, toNat_fieldN]; have := w.isLt; omega

theorem packByte_fields (w : Word) : packByte (fieldOp w) (fieldX w) (fieldNN w) = w := by
  apply BitVec.eq_of_toNat_eq
  rw [toNat_packByte, toNat_fieldOp, toNat_fieldX, toNat_fieldNN]; have := w.isLt; omega

theorem packAddr_fields (w : Word) : packAddr (fieldOp w) (fieldNNN w) = w := by
  apply BitVec.eq_of_toNat_eq
  rw [toNat_packAddr, toNat_fieldOp, toNat_fieldNNN]; have := w.isLt; omega

/-! ### What a mask looks at -/

theorem packNibbles_and (a b c d a' b' c' d' : Nibble) :
    packNibbles a b c d &&& packNibbles a' b' c' d' = packNibbles (a &&& a') (b &&& b') (c &&& c') (d &&& d') := by
  exact (show ((a ++ b ++ c ++ d) &&& (a' ++ b' ++ c' ++ d') : BitVec (4 + 4 + 4 + 4)) = _ by simp only [BitVec.and_append]; rfl)

theorem packNibbles_inj {a b c d a' b' c' d' : Nibble} :
    packNibbles a b c d = packNibbles a' b' c' d' ↔ a = a' ∧ b = b' ∧ c = c' ∧ d = d' := by
  refine ⟨fun h => ⟨?_, ?_, ?_, ?_⟩, fun ⟨h1, h2, h3, h4⟩ => by rw [h1, h2, h3, h4]⟩
  · simpa using congrArg fieldOp h
  · simpa using congrArg fieldX h
  · simpa using congrArg fieldY h
  · simpa using congrArg fieldN h

theorem nibble_and_F (a : Nibble) : a &&& 0xF = a := BitVec.and_allOnes

theorem nibble_and_0 (a : Nibble) : a &&& 0 = 0 := BitVec.and_zero

/-- NN is Y followed by N (R71). -/
theorem fieldNN_eq_iff (w : Word) (c d : Nibble) : fieldNN w = (c ++ d : BitVec 8) ↔ fieldY w = c ∧ fieldN w = d := by
  have h1 := toNat_fieldNN w
  have h2 := toNat_fieldY w
  have h3 := toNat_fieldN w
  have h4 : (c ++ d : BitVec 8).toNat = c.toNat * 16 + d.toNat := toNat_append_eq c d
  have := c.isLt
  have := d.isLt
  simp only [← BitVec.toNat_inj, h1, h2, h3, h4]
  omega

/-- Mask 0xF000 looks at `op`. -/
theorem mask_op (w : Word) (a : Nibble) : w &&& packNibbles 0xF 0 0 0 = packNibbles a 0 0 0 ↔ fieldOp w = a := by
  conv => lhs; lhs; lhs; rw [← packNibbles_fields w]
  rw [packNibbles_and, packNibbles_inj]; simp only [nibble_and_F, nibble_and_0, and_true]

/-- Mask 0xF00F looks at `op` and `N`. -/
theorem mask_op_n (w : Word) (a d : Nibble) :
    w &&& packNibbles 0xF 0 0 0xF = packNibbles a 0 0 d ↔ fieldOp w = a ∧ fieldN w = d := by
  conv => lhs; lhs; lhs; rw [← packNibbles_fields w]
  rw [packNibbles_and, packNibbles_inj]; simp only [nibble_and_F, nibble_and_0, true_and]

/-- Mask 0xF0FF looks at `op` and `NN`. -/
theorem mask_op_nn (w : Word) (a c d : Nibble) :
    w &&& packNibbles 0xF 0 0xF 0xF = packNibbles a 0 c d ↔ fieldOp w = a ∧ fieldNN w = (c ++ d : BitVec 8) := by
  conv => lhs; lhs; lhs; rw [← packNibbles_fields w]
  rw [packNibbles_and, packNibbles_inj, fieldNN_eq_iff]; simp only [nibble_and_F, nibble_and_0, true_and]

/-! ### Row by row -/

theorem decodeWord_cls {w : Word} (h : w &&& 0xF0FF = 0x00E0) : decodeWord w = .cls (fieldX w) := by
  obtain ⟨ho, hn⟩ : fieldOp w = 0x0 ∧ fieldNN w = 0xe0 := (mask_op_nn w 0x0 0xe 0x0).1 h
  simp [decodeWord, decodeGroup0, ho, hn]

theorem decodeWord_ret {w : Word} (h : w &&& 0xF0FF = 0x00EE) : decodeWord w = .ret (fieldX w) := by
  obtain ⟨ho, hn⟩ : fieldOp w = 0x0 ∧ fieldNN w = 0xee := (mask_op_nn w 0x0 0xe 0xe).1 h
  simp [decodeWord, decodeGroup0, ho, hn]

theorem decodeWord_jp {w : Word} (h : w &&& 0xF000 = 0x1000) : decodeWord w = .jp (fieldNNN w) := by
  have ho : fieldOp w = 0x1 := (mask_op w 0x1).1 h
  simp [decodeWord, ho]

theorem decodeWord_call {w : Word} (h : w &&& 0xF000 = 0x2000) : decodeWord w = .call (fieldNNN w) := by
  have ho : fieldOp w = 0x2 := (mask_op w 0x2).1 h
  simp [decodeWord, ho]

theorem decodeWord_seImm {w : Word} (h : w &&& 0xF000 = 0x3000) : decodeWord w = .seImm (fieldX w) (fieldNN w) := by
  have ho : fieldOp w = 0x3 := (mask_op w 0x3).1 h
  simp [decodeWord, ho]

theorem decodeWord_sneImm {w : Word} (h : w &&& 0xF000 = 0x4000) : decodeWord w = .sneImm (fieldX w) (fieldNN w) := by
  have ho : fieldOp w = 0x4 := (mask_op w 0x4).1 h
  simp [decodeWord, ho]

theorem decodeWord_seReg {w : Word} (h : w &&& 0xF000 = 0x5000) : decodeWord w = .seReg (fieldX w) (fieldY w) (fieldN w) := by
  have ho : fieldOp w = 0x5 := (mask_op w 0x5).1 h
  simp [decodeWord, ho]

theorem decodeWord_ldImm {w : Word} (h : w &&& 0xF000 = 0x6000) : decodeWord w = .ldImm (fieldX w) (fieldNN w) := by
  have ho : fieldOp w = 0x6 := (mask_op w 0x6).1 h
  simp [decodeWord, ho]

theorem decodeWord_addImm {w : Word} (h : w &&& 0xF000 = 0x7000) : decodeWord w = .addImm (fieldX w) (fieldNN w) := by
  have ho : fieldOp w = 0x7 := (mask_op w 0x7).1 h
  simp [decodeWord, ho]

theorem decodeWord_ldReg {w : Word} (h : w &&& 0xF00F = 0x8000) : decodeWord w = .ldReg (fieldX w) (fieldY w) := by
  obtain ⟨ho, hn⟩ : fieldOp w = 0x8 ∧ fieldN w = 0x0 := (mask_op_n w 0x8 0x0).1 h
  simp [decodeWord, decodeGroup8, ho, hn]

theorem decodeWord_orReg {w : Word} (h : w &&& 0xF00F = 0x8001) : decodeWord w = .orReg (fieldX w) (fieldY w) := by
  obtain ⟨ho, hn⟩ : fieldOp w = 0x8 ∧ fieldN w = 0x1 := (mask_op_n w 0x8 0x1).1 h
  simp [decodeWord, decodeGroup8, ho, hn]

theorem decodeWord_andReg {w : Word} (h : w &&& 0xF00F = 0x8002) : decodeWord w = .andReg (fieldX w) (fieldY w) := by
  obtain ⟨ho, hn⟩ : fieldOp w = 0x8 ∧ fieldN w = 0x2 := (mask_op_n w 0x8 0x2).1 h
  simp [decodeWord, decodeGroup8, ho, hn]

theorem decodeWord_xorReg {w : Word} (h : w &&& 0xF00F = 0x8003) : decodeWord w = .xorReg (fieldX w) (fieldY w) := by
  obtain ⟨ho, hn⟩ : fieldOp w = 0x8 ∧ fieldN w = 0x3 := (mask_op_n w 0x8 0x3).1 h
  simp [decodeWord, decodeGroup8, ho, hn]

theorem decodeWord_addReg {w : Word} (h : w &&& 0xF00F = 0x8004) : decodeWord w = .addReg (fieldX w) (fieldY w) := by
  obtain ⟨ho, hn⟩ : fieldOp w = 0x8 ∧ fieldN w = 0x4 := (mask_op_n w 0x8 0x4).1 h
  simp [decodeWord, decodeGroup8, ho, hn]

theorem decodeWord_subReg {w : Word} (h : w &&& 0xF00F = 0x8005) : decodeWord w = .subReg (fieldX w) (fieldY w) := by
  obtain ⟨ho, hn⟩ : fieldOp w = 0x8 ∧ fieldN w = 0x5 := (mask_op_n w 0x8 0x5).1 h
  simp [decodeWord, decodeGroup8, ho, hn]

theorem decodeWord_shr {w : Word} (h : w &&& 0xF00F = 0x8006) : decodeWord w = .shr (fieldX w) (fieldY w) := by
  obtain ⟨ho, hn⟩ : fieldOp w = 0x8 ∧ fieldN w = 0x6 := (mask_op_n w 0x8 0x6).1 h
  simp [decodeWord, decodeGroup8, ho, hn]

theorem decodeWord_subnReg {w : Word} (h : w &&& 0xF00F = 0x8007) : decodeWord w = .subnReg (fieldX w) (fieldY w) := by
  obtain ⟨ho, hn⟩ : fieldOp w = 0x8 ∧ fieldN w = 0x7 := (mask_op_n w 0x8 0x7).1 h
  simp [decodeWord, decodeGroup8, ho, hn]

theorem decodeWord_shl {w : Word} (h : w &&& 0xF00F = 0x800E) : decodeWord w = .shl (fieldX w) (fieldY w) := by
  obtain ⟨ho, hn⟩ : fieldOp w = 0x8 ∧ fieldN w = 0xe := (mask_op_n w 0x8 0xe).1 h
  simp [decodeWord, decodeGroup8, ho, hn]

theorem decodeWord_sneReg {w : Word} (h : w &&& 0xF000 = 0x9000) : decodeWord w = .sneReg (fieldX w) (fieldY w) (fieldN w) := by
  have ho : fieldOp w = 0x9 := (mask_op w 0x9).1 h
  simp [decodeWord, ho]

theorem decodeWord_ldI {w : Word} (h : w &&& 0xF000 = 0xA000) : decodeWord w = .ldI (fieldNNN w) := by
  have ho : fieldOp w = 0xa := (mask_op w 0xa).1 h
  simp [decodeWord, ho]

theorem decodeWord_jpV0 {w : Word} (h : w &&& 0xF000 = 0xB000) : decodeWord w = .jpV0 (fieldNNN w) := by
  have ho : fieldOp w = 0xb := (mask_op w 0xb).1 h
  simp [decodeWord, ho]

theorem decodeWord_rnd {w : Word} (h : w &&& 0xF000 = 0xC000) : decodeWord w = .rnd (fieldX w) (fieldNN w) := by
  have ho : fieldOp w = 0xc := (mask_op w 0xc).1 h
  simp [decodeWord, ho]

theorem decodeWord_drw {w : Word} (h : w &&& 0xF000 = 0xD000) : decodeWord w = .drw (fieldX w) (fieldY w) (fieldN w) := by
  have ho : fieldOp w = 0xd := (mask_op w 0xd).1 h
  simp [decodeWord, ho]

theorem decodeWord_skp {w : Word} (h : w &&& 0xF0FF = 0xE09E) : decodeWord w = .skp (fieldX w) := by
  obtain ⟨ho, hn⟩ : fieldOp w = 0xe ∧ fieldNN w = 0x9e := (mask_op_nn w 0xe 0x9 0xe).1 h
  simp [decodeWord, decodeGroupE, ho, hn]

theorem decodeWord_sknp {w : Word} (h : w &&& 0xF0FF = 0xE0A1) : decodeWord w = .sknp (fieldX w) := by
  obtain ⟨ho, hn⟩ : fieldOp w = 0xe ∧ fieldNN w = 0xa1 := (mask_op_nn w 0xe 0xa 0x1).1 h
  simp [decodeWord, decodeGroupE, ho, hn]

theorem decodeWord_ldVxDt {w : Word} (h : w &&& 0xF0FF = 0xF007) : decodeWord w = .ldVxDt (fieldX w) := by
  obtain ⟨ho, hn⟩ : fieldOp w = 0xf ∧ fieldNN w = 0x7 := (mask_op_nn w 0xf 0x0 0x7).1 h
  simp [decodeWord, decodeGroupF, ho, hn]

theorem decodeWord_ldVxK {w : Word} (h : w &&& 0xF0FF = 0xF00A) : decodeWord w = .ldVxK (fieldX w) := by
  obtain ⟨ho, hn⟩ : fieldOp w = 0xf ∧ fieldNN w = 0xa := (mask_op_nn w 0xf 0x0 0xa).1 h
  simp [decodeWord, decodeGroupF, ho, hn]

theorem decodeWord_ldDtVx {w : Word} (h : w &&& 0xF0FF = 0xF015) : decodeWord w = .ldDtVx (fieldX w) := by
  obtain ⟨ho, hn⟩ : fieldOp w = 0xf ∧ fieldNN w = 0x15 := (mask_op_nn w 0xf 0x1 0x5).1 h
  simp [decodeWord, decodeGroupF, ho, hn]

theorem decodeWord_ldStVx {w : Word} (h : w &&& 0xF0FF = 0xF018) : decodeWord w = .ldStVx (fieldX w) := by
  obtain ⟨ho, hn⟩ : fieldOp w = 0xf ∧ fieldNN w = 0x18 := (mask_op_nn w 0xf 0x1 0x8).1 h
  simp [decodeWord, decodeGroupF, ho, hn]

theorem decodeWord_addI {w : Word} (h : w &&& 0xF0FF = 0xF01E) : decodeWord w = .addI (fieldX w) := by
  obtain ⟨ho, hn⟩ : fieldOp w = 0xf ∧ fieldNN w = 0x1e := (mask_op_nn w 0xf 0x1 0xe).1 h
  simp [decodeWord, decodeGroupF, ho, hn]

theorem decodeWord_ldF {w : Word} (h : w &&& 0xF0FF = 0xF029) : decodeWord w = .ldF (fieldX w) := by
  obtain ⟨ho, hn⟩ : fieldOp w = 0xf ∧ fieldNN w = 0x29 := (mask_op_nn w 0xf 0x2 0x9).1 h
  simp [decodeWord, decodeGroupF, ho, hn]

theorem decodeWord_ldB {w : Word} (h : w &&& 0xF0FF = 0xF033) : decodeWord w = .ldB (fieldX w) := by
  obtain ⟨ho, hn⟩ : fieldOp w = 0xf ∧ fieldNN w = 0x33 := (mask_op_nn w 0xf 0x3 0x3).1 h
  simp [decodeWord, decodeGroupF, ho, hn]

theorem decodeWord_stRegs {w : Word} (h : w &&& 0xF0FF = 0xF055) : decodeWord w = .stRegs (fieldX w) := by
  obtain ⟨ho, hn⟩ : fieldOp w = 0xf ∧ fieldNN w = 0x55 := (mask_op_nn w 0xf 0x5 0x5).1 h
  simp [decodeWord, decodeGroupF, ho, hn]

theorem decodeWord_ldRegs {w : Word} (h : w &&& 0xF0FF = 0xF065) : decodeWord w = .ldRegs (fieldX w) := by
  obtain ⟨ho, hn⟩ : fieldOp w = 0xf ∧ fieldNN w = 0x65 := (mask_op_nn w 0xf 0x6 0x5).1 h
  simp [decodeWord, decodeGroupF, ho, hn]

/-- No row of R76 matches an undefined word: what its fields are not. -/
theorem fields_of_undefined {w : Word} (h : definedWord w = false) :
    ¬ (fieldOp w = 0x0 ∧ fieldNN w = 0xe0) ∧
      ¬ (fieldOp w = 0x0 ∧ fieldNN w = 0xee) ∧
      fieldOp w ≠ 0x1 ∧
      fieldOp w ≠ 0x2 ∧
      fieldOp w ≠ 0x3 ∧
      fieldOp w ≠ 0x4 ∧
      fieldOp w ≠ 0x5 ∧
      fieldOp w ≠ 0x6 ∧
      fieldOp w ≠ 0x7 ∧
      ¬ (fieldOp w = 0x8 ∧ fieldN w = 0x0) ∧
      ¬ (fieldOp w = 0x8 ∧ fieldN w = 0x1) ∧
      ¬ (fieldOp w = 0x8 ∧ fieldN w = 0x2) ∧
      ¬ (fieldOp w = 0x8 ∧ fieldN w = 0x3) ∧
      ¬ (fieldOp w = 0x8 ∧ fieldN w = 0x4) ∧
      ¬ (fieldOp w = 0x8 ∧ fieldN w = 0x5) ∧
      ¬ (fieldOp w = 0x8 ∧ fieldN w = 0x6) ∧
      ¬ (fieldOp w = 0x8 ∧ fieldN w = 0x7) ∧
      ¬ (fieldOp w = 0x8 ∧ fieldN w = 0xe) ∧
      fieldOp w ≠ 0x9 ∧
      fieldOp w ≠ 0xa ∧
      fieldOp w ≠ 0xb ∧
      fieldOp w ≠ 0xc ∧
      fieldOp w ≠ 0xd ∧
      ¬ (fieldOp w = 0xe ∧ fieldNN w = 0x9e) ∧
      ¬ (fieldOp w = 0xe ∧ fieldNN w = 0xa1) ∧
      ¬ (fieldOp w = 0xf ∧ fieldNN w = 0x7) ∧
      ¬ (fieldOp w = 0xf ∧ fieldNN w = 0xa) ∧
      ¬ (fieldOp w = 0xf ∧ fieldNN w = 0x15) ∧
      ¬ (fieldOp w = 0xf ∧ fieldNN w = 0x18) ∧
      ¬ (fieldOp w = 0xf ∧ fieldNN w = 0x1e) ∧
      ¬ (fieldOp w = 0xf ∧ fieldNN w = 0x29) ∧
      ¬ (fieldOp w = 0xf ∧ fieldNN w = 0x33) ∧
      ¬ (fieldOp w = 0xf ∧ fieldNN w = 0x55) ∧
      ¬ (fieldOp w = 0xf ∧ fieldNN w = 0x65) := by
  simp only [definedWord, opcodeRows, OpRow.matchesWord, List.any_append, List.any_cons, List.any_nil, Bool.or_false,
    Bool.or_eq_false_iff, beq_eq_false_iff_ne, ne_eq] at h
  obtain ⟨⟨h0, h1, h2, h3, h4, h5, h6, h7, h8, h9, h10, h11, h12, h13, h14, h15, h16⟩,
    h17, h18, h19, h20, h21, h22, h23, h24, h25, h26, h27, h28, h29, h30, h31, h32, h33⟩ := h
  exact ⟨fun e => h0 ((mask_op_nn w 0x0 0xe 0x0).2 e),
    fun e => h1 ((mask_op_nn w 0x0 0xe 0xe).2 e),
    fun e => h2 ((mask_op w 0x1).2 e),
    fun e => h3 ((mask_op w 0x2).2 e),
    fun e => h4 ((mask_op w 0x3).2 e),
    fun e => h5 ((mask_op w 0x4).2 e),
    fun e => h6 ((mask_op w 0x5).2 e),
    fun e => h7 ((mask_op w 0x6).2 e),
    fun e => h8 ((mask_op w 0x7).2 e),
    fun e => h9 ((mask_op_n w 0x8 0x0).2 e),
    fun e => h10 ((mask_op_n w 0x8 0x1).2 e),
    fun e => h11 ((mask_op_n w 0x8 0x2).2 e),
    fun e => h12 ((mask_op_n w 0x8 0x3).2 e),
    fun e => h13 ((mask_op_n w 0x8 0x4).2 e),
    fun e => h14 ((mask_op_n w 0x8 0x5).2 e),
    fun e => h15 ((mask_op_n w 0x8 0x6).2 e),
    fun e => h16 ((mask_op_n w 0x8 0x7).2 e),
    fun e => h17 ((mask_op_n w 0x8 0xe).2 e),
    fun e => h18 ((mask_op w 0x9).2 e),
    fun e => h19 ((mask_op w 0xa).2 e),
    fun e => h20 ((mask_op w 0xb).2 e),
    fun e => h21 ((mask_op w 0xc).2 e),
    fun e => h22 ((mask_op w 0xd).2 e),
    fun e => h23 ((mask_op_nn w 0xe 0x9 0xe).2 e),
    fun e => h24 ((mask_op_nn w 0xe 0xa 0x1).2 e),
    fun e => h25 ((mask_op_nn w 0xf 0x0 0x7).2 e),
    fun e => h26 ((mask_op_nn w 0xf 0x0 0xa).2 e),
    fun e => h27 ((mask_op_nn w 0xf 0x1 0x5).2 e),
    fun e => h28 ((mask_op_nn w 0xf 0x1 0x8).2 e),
    fun e => h29 ((mask_op_nn w 0xf 0x1 0xe).2 e),
    fun e => h30 ((mask_op_nn w 0xf 0x2 0x9).2 e),
    fun e => h31 ((mask_op_nn w 0xf 0x3 0x3).2 e),
    fun e => h32 ((mask_op_nn w 0xf 0x5 0x5).2 e),
    fun e => h33 ((mask_op_nn w 0xf 0x6 0x5).2 e)⟩

/-- A word that no row of R76 matches decodes to `undefined` (R77). -/
theorem decodeWord_undefined {w : Word} (h : definedWord w = false) : decodeWord w = .undefined w := by
  obtain ⟨h0, h1, h2, h3, h4, h5, h6, h7, h8, h9, h10, h11, h12, h13, h14, h15, h16, h17, h18, h19, h20, h21, h22, h23, h24, h25, h26, h27, h28, h29, h30, h31, h32, h33⟩ := fields_of_undefined h
  have hop := (fieldOp w).isLt
  unfold decodeWord
  split
  · next ho =>
    have ho : fieldOp w = 0x0 := BitVec.eq_of_toNat_eq ho
    unfold decodeGroup0
    split
    · next hn => exact absurd ⟨ho, BitVec.eq_of_toNat_eq hn⟩ h0
    · next hn => exact absurd ⟨ho, BitVec.eq_of_toNat_eq hn⟩ h1
    · rfl
  · next ho => exact absurd (BitVec.eq_of_toNat_eq ho) h2
  · next ho => exact absurd (BitVec.eq_of_toNat_eq ho) h3
  · next ho => exact absurd (BitVec.eq_of_toNat_eq ho) h4
  · next ho => exact absurd (BitVec.eq_of_toNat_eq ho) h5
  · next ho => exact absurd (BitVec.eq_of_toNat_eq ho) h6
  · next ho => exact absurd (BitVec.eq_of_toNat_eq ho) h7
  · next ho => exact absurd (BitVec.eq_of_toNat_eq ho) h8
  · next ho =>
    have ho : fieldOp w = 0x8 := BitVec.eq_of_toNat_eq ho
    unfold decodeGroup8
    split
    · next hn => exact absurd ⟨ho, BitVec.eq_of_toNat_eq hn⟩ h9
    · next hn => exact absurd ⟨ho, BitVec.eq_of_toNat_eq hn⟩ h10
    · next hn => exact absurd ⟨ho, BitVec.eq_of_toNat_eq hn⟩ h11
    · next hn => exact absurd ⟨ho, BitVec.eq_of_toNat_eq hn⟩ h12
    · next hn => exact absurd ⟨ho, BitVec.eq_of_toNat_eq hn⟩ h13
    · next hn => exact absurd ⟨ho, BitVec.eq_of_toNat_eq hn⟩ h14
    · next hn => exact absurd ⟨ho, BitVec.eq_of_toNat_eq hn⟩ h15
    · next hn => exact absurd ⟨ho, BitVec.eq_of_toNat_eq hn⟩ h16
    · next hn => exact absurd ⟨ho, BitVec.eq_of_toNat_eq hn⟩ h17
    · rfl
  · next ho => exact absurd (BitVec.eq_of_toNat_eq ho) h18
  · next ho => exact absurd (BitVec.eq_of_toNat_eq ho) h19
  · next ho => exact absurd (BitVec.eq_of_toNat_eq ho) h20
  · next ho => exact absurd (BitVec.eq_of_toNat_eq ho) h21
  · next ho => exact absurd (BitVec.eq_of_toNat_eq ho) h22
  · next ho =>
    have ho : fieldOp w = 0xe := BitVec.eq_of_toNat_eq ho
    unfold decodeGroupE
    split
    · next hn => exact absurd ⟨ho, BitVec.eq_of_toNat_eq hn⟩ h23
    · next hn => exact absurd ⟨ho, BitVec.eq_of_toNat_eq hn⟩ h24
    · rfl
  · next n0 n1 n2 n3 n4 n5 n6 n7 n8 n9 n10 n11 n12 n13 n14 =>
    simp only [imp_false] at n0 n1 n2 n3 n4 n5 n6 n7 n8 n9 n10 n11 n12 n13 n14
    have ho : fieldOp w = 0xf := BitVec.eq_of_toNat_eq (show (fieldOp w).toNat = 15 by omega)
    unfold decodeGroupF
    split
    · next hn => exact absurd ⟨ho, BitVec.eq_of_toNat_eq hn⟩ h25
    · next hn => exact absurd ⟨ho, BitVec.eq_of_toNat_eq hn⟩ h26
    · next hn => exact absurd ⟨ho, BitVec.eq_of_toNat_eq hn⟩ h27
    · next hn => exact absurd ⟨ho, BitVec.eq_of_toNat_eq hn⟩ h28
    · next hn => exact absurd ⟨ho, BitVec.eq_of_toNat_eq hn⟩ h29
    · next hn => exact absurd ⟨ho, BitVec.eq_of_toNat_eq hn⟩ h30
    · next hn => exact absurd ⟨ho, BitVec.eq_of_toNat_eq hn⟩ h31
    · next hn => exact absurd ⟨ho, BitVec.eq_of_toNat_eq hn⟩ h32
    · next hn => exact absurd ⟨ho, BitVec.eq_of_toNat_eq hn⟩ h33
    · rfl

end Sys2Proof
end

