-- ==== Sys2Proof/Laws/State.lean ====
section
/-! SUPPORT. One lemma per field per named update of State, true by rfl, so that no proof unfolds a record update; and what a
register reads as after a write. -/

namespace Sys2Proof.Machine

@[simp] theorem State.writeV_v (s : State) (r : Nibble) (b : Byte) : (s.writeV r b).v = s.v.set r.toNat b r.isLt := rfl
@[simp] theorem State.writeV_i (s : State) (r : Nibble) (b : Byte) : (s.writeV r b).i = s.i := rfl
@[simp] theorem State.writeV_pc (s : State) (r : Nibble) (b : Byte) : (s.writeV r b).pc = s.pc := rfl
@[simp] theorem State.writeV_stack (s : State) (r : Nibble) (b : Byte) : (s.writeV r b).stack = s.stack := rfl
@[simp] theorem State.writeV_sp (s : State) (r : Nibble) (b : Byte) : (s.writeV r b).sp = s.sp := rfl
@[simp] theorem State.writeV_dt (s : State) (r : Nibble) (b : Byte) : (s.writeV r b).dt = s.dt := rfl
@[simp] theorem State.writeV_st (s : State) (r : Nibble) (b : Byte) : (s.writeV r b).st = s.st := rfl
@[simp] theorem State.writeV_fb (s : State) (r : Nibble) (b : Byte) : (s.writeV r b).fb = s.fb := rfl
@[simp] theorem State.writeV_mem (s : State) (r : Nibble) (b : Byte) : (s.writeV r b).mem = s.mem := rfl
@[simp] theorem State.writeV_key (s : State) (r : Nibble) (b : Byte) : (s.writeV r b).key = s.key := rfl
@[simp] theorem State.writeV_fsm (s : State) (r : Nibble) (b : Byte) : (s.writeV r b).fsm = s.fsm := rfl
@[simp] theorem State.writeV_wk (s : State) (r : Nibble) (b : Byte) : (s.writeV r b).wk = s.wk := rfl
@[simp] theorem State.writeV_wx (s : State) (r : Nibble) (b : Byte) : (s.writeV r b).wx = s.wx := rfl
@[simp] theorem State.writeV_halt (s : State) (r : Nibble) (b : Byte) : (s.writeV r b).halt = s.halt := rfl
@[simp] theorem State.writeV_errAddr (s : State) (r : Nibble) (b : Byte) : (s.writeV r b).errAddr = s.errAddr := rfl
@[simp] theorem State.writeV_outside (s : State) (r : Nibble) (b : Byte) : (s.writeV r b).outside = s.outside := rfl

@[simp] theorem State.setPc_v (s : State) (a : Word) : (s.setPc a).v = s.v := rfl
@[simp] theorem State.setPc_i (s : State) (a : Word) : (s.setPc a).i = s.i := rfl
@[simp] theorem State.setPc_pc (s : State) (a : Word) : (s.setPc a).pc = a := rfl
@[simp] theorem State.setPc_stack (s : State) (a : Word) : (s.setPc a).stack = s.stack := rfl
@[simp] theorem State.setPc_sp (s : State) (a : Word) : (s.setPc a).sp = s.sp := rfl
@[simp] theorem State.setPc_dt (s : State) (a : Word) : (s.setPc a).dt = s.dt := rfl
@[simp] theorem State.setPc_st (s : State) (a : Word) : (s.setPc a).st = s.st := rfl
@[simp] theorem State.setPc_fb (s : State) (a : Word) : (s.setPc a).fb = s.fb := rfl
@[simp] theorem State.setPc_mem (s : State) (a : Word) : (s.setPc a).mem = s.mem := rfl
@[simp] theorem State.setPc_key (s : State) (a : Word) : (s.setPc a).key = s.key := rfl
@[simp] theorem State.setPc_fsm (s : State) (a : Word) : (s.setPc a).fsm = s.fsm := rfl
@[simp] theorem State.setPc_wk (s : State) (a : Word) : (s.setPc a).wk = s.wk := rfl
@[simp] theorem State.setPc_wx (s : State) (a : Word) : (s.setPc a).wx = s.wx := rfl
@[simp] theorem State.setPc_halt (s : State) (a : Word) : (s.setPc a).halt = s.halt := rfl
@[simp] theorem State.setPc_errAddr (s : State) (a : Word) : (s.setPc a).errAddr = s.errAddr := rfl
@[simp] theorem State.setPc_outside (s : State) (a : Word) : (s.setPc a).outside = s.outside := rfl

@[simp] theorem State.advance_v (s : State) : (s.advance).v = s.v := rfl
@[simp] theorem State.advance_i (s : State) : (s.advance).i = s.i := rfl
@[simp] theorem State.advance_pc (s : State) : (s.advance).pc = s.npc := rfl
@[simp] theorem State.advance_stack (s : State) : (s.advance).stack = s.stack := rfl
@[simp] theorem State.advance_sp (s : State) : (s.advance).sp = s.sp := rfl
@[simp] theorem State.advance_dt (s : State) : (s.advance).dt = s.dt := rfl
@[simp] theorem State.advance_st (s : State) : (s.advance).st = s.st := rfl
@[simp] theorem State.advance_fb (s : State) : (s.advance).fb = s.fb := rfl
@[simp] theorem State.advance_mem (s : State) : (s.advance).mem = s.mem := rfl
@[simp] theorem State.advance_key (s : State) : (s.advance).key = s.key := rfl
@[simp] theorem State.advance_fsm (s : State) : (s.advance).fsm = s.fsm := rfl
@[simp] theorem State.advance_wk (s : State) : (s.advance).wk = s.wk := rfl
@[simp] theorem State.advance_wx (s : State) : (s.advance).wx = s.wx := rfl
@[simp] theorem State.advance_halt (s : State) : (s.advance).halt = s.halt := rfl
@[simp] theorem State.advance_errAddr (s : State) : (s.advance).errAddr = s.errAddr := rfl
@[simp] theorem State.advance_outside (s : State) : (s.advance).outside = s.outside := rfl

@[simp] theorem State.fatal_v (s : State) (c : Halt) (a : Nat) : (s.fatal c a).v = s.v := rfl
@[simp] theorem State.fatal_i (s : State) (c : Halt) (a : Nat) : (s.fatal c a).i = s.i := rfl
@[simp] theorem State.fatal_pc (s : State) (c : Halt) (a : Nat) : (s.fatal c a).pc = s.pc := rfl
@[simp] theorem State.fatal_stack (s : State) (c : Halt) (a : Nat) : (s.fatal c a).stack = s.stack := rfl
@[simp] theorem State.fatal_sp (s : State) (c : Halt) (a : Nat) : (s.fatal c a).sp = s.sp := rfl
@[simp] theorem State.fatal_dt (s : State) (c : Halt) (a : Nat) : (s.fatal c a).dt = s.dt := rfl
@[simp] theorem State.fatal_st (s : State) (c : Halt) (a : Nat) : (s.fatal c a).st = s.st := rfl
@[simp] theorem State.fatal_fb (s : State) (c : Halt) (a : Nat) : (s.fatal c a).fb = s.fb := rfl
@[simp] theorem State.fatal_mem (s : State) (c : Halt) (a : Nat) : (s.fatal c a).mem = s.mem := rfl
@[simp] theorem State.fatal_key (s : State) (c : Halt) (a : Nat) : (s.fatal c a).key = s.key := rfl
@[simp] theorem State.fatal_fsm (s : State) (c : Halt) (a : Nat) : (s.fatal c a).fsm = s.fsm := rfl
@[simp] theorem State.fatal_wk (s : State) (c : Halt) (a : Nat) : (s.fatal c a).wk = s.wk := rfl
@[simp] theorem State.fatal_wx (s : State) (c : Halt) (a : Nat) : (s.fatal c a).wx = s.wx := rfl
@[simp] theorem State.fatal_halt (s : State) (c : Halt) (a : Nat) : (s.fatal c a).halt = c := rfl
@[simp] theorem State.fatal_errAddr (s : State) (c : Halt) (a : Nat) : (s.fatal c a).errAddr = BitVec.ofNat 17 a := rfl
@[simp] theorem State.fatal_outside (s : State) (c : Halt) (a : Nat) : (s.fatal c a).outside = s.outside := rfl

@[simp] theorem State.takeEvent_v (s : State) : (s.takeEvent).v = s.v := rfl
@[simp] theorem State.takeEvent_i (s : State) : (s.takeEvent).i = s.i := rfl
@[simp] theorem State.takeEvent_pc (s : State) : (s.takeEvent).pc = s.pc := rfl
@[simp] theorem State.takeEvent_stack (s : State) : (s.takeEvent).stack = s.stack := rfl
@[simp] theorem State.takeEvent_sp (s : State) : (s.takeEvent).sp = s.sp := rfl
@[simp] theorem State.takeEvent_dt (s : State) : (s.takeEvent).dt = s.dt := rfl
@[simp] theorem State.takeEvent_st (s : State) : (s.takeEvent).st = s.st := rfl
@[simp] theorem State.takeEvent_fb (s : State) : (s.takeEvent).fb = s.fb := rfl
@[simp] theorem State.takeEvent_mem (s : State) : (s.takeEvent).mem = s.mem := rfl
@[simp] theorem State.takeEvent_key (s : State) : (s.takeEvent).key = s.key := rfl
@[simp] theorem State.takeEvent_fsm (s : State) : (s.takeEvent).fsm = s.fsm := rfl
@[simp] theorem State.takeEvent_wk (s : State) : (s.takeEvent).wk = s.wk := rfl
@[simp] theorem State.takeEvent_wx (s : State) : (s.takeEvent).wx = s.wx := rfl
@[simp] theorem State.takeEvent_halt (s : State) : (s.takeEvent).halt = s.halt := rfl
@[simp] theorem State.takeEvent_errAddr (s : State) : (s.takeEvent).errAddr = s.errAddr := rfl
@[simp] theorem State.takeEvent_outside (s : State) : (s.takeEvent).outside = s.outside.raised := rfl

@[simp] theorem State.loadLowRegs_i (s : State) (x : Nibble) : (s.loadLowRegs x).i = s.i := rfl
@[simp] theorem State.loadLowRegs_pc (s : State) (x : Nibble) : (s.loadLowRegs x).pc = s.pc := rfl
@[simp] theorem State.loadLowRegs_stack (s : State) (x : Nibble) : (s.loadLowRegs x).stack = s.stack := rfl
@[simp] theorem State.loadLowRegs_sp (s : State) (x : Nibble) : (s.loadLowRegs x).sp = s.sp := rfl
@[simp] theorem State.loadLowRegs_dt (s : State) (x : Nibble) : (s.loadLowRegs x).dt = s.dt := rfl
@[simp] theorem State.loadLowRegs_st (s : State) (x : Nibble) : (s.loadLowRegs x).st = s.st := rfl
@[simp] theorem State.loadLowRegs_fb (s : State) (x : Nibble) : (s.loadLowRegs x).fb = s.fb := rfl
@[simp] theorem State.loadLowRegs_mem (s : State) (x : Nibble) : (s.loadLowRegs x).mem = s.mem := rfl
@[simp] theorem State.loadLowRegs_key (s : State) (x : Nibble) : (s.loadLowRegs x).key = s.key := rfl
@[simp] theorem State.loadLowRegs_fsm (s : State) (x : Nibble) : (s.loadLowRegs x).fsm = s.fsm := rfl
@[simp] theorem State.loadLowRegs_wk (s : State) (x : Nibble) : (s.loadLowRegs x).wk = s.wk := rfl
@[simp] theorem State.loadLowRegs_wx (s : State) (x : Nibble) : (s.loadLowRegs x).wx = s.wx := rfl
@[simp] theorem State.loadLowRegs_halt (s : State) (x : Nibble) : (s.loadLowRegs x).halt = s.halt := rfl
@[simp] theorem State.loadLowRegs_errAddr (s : State) (x : Nibble) : (s.loadLowRegs x).errAddr = s.errAddr := rfl
@[simp] theorem State.loadLowRegs_outside (s : State) (x : Nibble) : (s.loadLowRegs x).outside = s.outside := rfl

theorem State.skipIf_eq (s : State) (c : Bool) : s.skipIf c = s.setPc (if c then s.npc + 2 else s.npc) := by
  cases c <;> rfl

@[simp] theorem State.skipIf_v (s : State) (c : Bool) : (s.skipIf c).v = s.v := by rw [State.skipIf_eq]; rfl
@[simp] theorem State.skipIf_i (s : State) (c : Bool) : (s.skipIf c).i = s.i := by rw [State.skipIf_eq]; rfl
@[simp] theorem State.skipIf_pc (s : State) (c : Bool) : (s.skipIf c).pc = if c then s.npc + 2 else s.npc := by
  rw [State.skipIf_eq]; rfl
@[simp] theorem State.skipIf_stack (s : State) (c : Bool) : (s.skipIf c).stack = s.stack := by rw [State.skipIf_eq]; rfl
@[simp] theorem State.skipIf_sp (s : State) (c : Bool) : (s.skipIf c).sp = s.sp := by rw [State.skipIf_eq]; rfl
@[simp] theorem State.skipIf_dt (s : State) (c : Bool) : (s.skipIf c).dt = s.dt := by rw [State.skipIf_eq]; rfl
@[simp] theorem State.skipIf_st (s : State) (c : Bool) : (s.skipIf c).st = s.st := by rw [State.skipIf_eq]; rfl
@[simp] theorem State.skipIf_fb (s : State) (c : Bool) : (s.skipIf c).fb = s.fb := by rw [State.skipIf_eq]; rfl
@[simp] theorem State.skipIf_mem (s : State) (c : Bool) : (s.skipIf c).mem = s.mem := by rw [State.skipIf_eq]; rfl
@[simp] theorem State.skipIf_key (s : State) (c : Bool) : (s.skipIf c).key = s.key := by rw [State.skipIf_eq]; rfl
@[simp] theorem State.skipIf_fsm (s : State) (c : Bool) : (s.skipIf c).fsm = s.fsm := by rw [State.skipIf_eq]; rfl
@[simp] theorem State.skipIf_wk (s : State) (c : Bool) : (s.skipIf c).wk = s.wk := by rw [State.skipIf_eq]; rfl
@[simp] theorem State.skipIf_wx (s : State) (c : Bool) : (s.skipIf c).wx = s.wx := by rw [State.skipIf_eq]; rfl
@[simp] theorem State.skipIf_halt (s : State) (c : Bool) : (s.skipIf c).halt = s.halt := by rw [State.skipIf_eq]; rfl
@[simp] theorem State.skipIf_errAddr (s : State) (c : Bool) : (s.skipIf c).errAddr = s.errAddr := by rw [State.skipIf_eq]; rfl
@[simp] theorem State.skipIf_outside (s : State) (c : Bool) : (s.skipIf c).outside = s.outside := by rw [State.skipIf_eq]; rfl

/-! ### Registers -/

theorem State.readV_writeV (s : State) (r q : Nibble) (b : Byte) :
    (s.writeV r b).readV q = if q = r then b else s.readV q := by
  simp only [State.readV, State.writeV, Vector.getElem_set, ← BitVec.toNat_inj, eq_comm (a := q.toNat)]

@[simp] theorem State.readV_writeV_self (s : State) (r : Nibble) (b : Byte) : (s.writeV r b).readV r = b := by
  simp [State.readV_writeV]

theorem State.readV_writeV_of_ne (s : State) {r q : Nibble} (b : Byte) (h : q ≠ r) :
    (s.writeV r b).readV q = s.readV q := by
  simp [State.readV_writeV, h]

@[simp] theorem State.readV_setPc (s : State) (a : Word) (q : Nibble) : (s.setPc a).readV q = s.readV q := rfl
@[simp] theorem State.readV_advance (s : State) (q : Nibble) : s.advance.readV q = s.readV q := rfl
@[simp] theorem State.readV_fatal (s : State) (c : Halt) (a : Nat) (q : Nibble) : (s.fatal c a).readV q = s.readV q := rfl
@[simp] theorem State.readV_skipIf (s : State) (c : Bool) (q : Nibble) : (s.skipIf c).readV q = s.readV q := by
  rw [State.skipIf_eq]; rfl

@[simp] theorem State.npc_writeV (s : State) (r : Nibble) (b : Byte) : (s.writeV r b).npc = s.npc := rfl

/-- FX65: V[0] to V[X] hold the bytes from I on, the registers above X are as before. -/
theorem State.readV_loadLowRegs (s : State) (x r : Nibble) :
    (s.loadLowRegs x).readV r = if r.toNat ≤ x.toNat then s.mem.read (s.effAddr r.toNat) else s.readV r := by
  simp [State.readV, State.loadLowRegs]

/-- FX55: the registers V[0] to V[X] are X + 1 bytes, the k-th of them V[k]. -/
theorem State.length_lowRegs (s : State) (x : Nibble) : (s.lowRegs x).length = x.toNat + 1 := by
  have := x.isLt
  simp [State.lowRegs]; omega

theorem State.lowRegs_getElem (s : State) (x : Nibble) {k : Nat} (h : k < (s.lowRegs x).length) :
    (s.lowRegs x)[k] = s.readV (BitVec.ofNat 4 k) := by
  have hk : k < 16 := by have := x.isLt; rw [State.length_lowRegs] at h; omega
  simp [State.lowRegs, State.readV, Nat.mod_eq_of_lt hk]

end Sys2Proof.Machine
end

