-- ==== Sys2Proof/Laws/Display.lean ====
section
/-! SUPPORT. The draw engine pixel by pixel: what a sprite byte covers, what a row's draw and a whole draw do to a pixel, and when
a draw turns a pixel off. -/

namespace Sys2Proof.Machine

/-- The pixel columns a sprite byte covers from column `x0` on: bit 7 - c at column x0 + c, none past column 63 (R172, R173). -/
theorem spriteRow_pixel (b : Byte) (x0 x : Nat) :
    (spriteRow b x0).getMsbD x = (decide (x < 64) && decide (x0 ≤ x) && b.getMsbD (x - x0)) := by
  unfold spriteRow
  rw [BitVec.getMsbD_ushiftRight, BitVec.getMsbD_append]
  by_cases h : x < 64 <;> by_cases h' : x < x0
  all_goals first
    | (have h2 : ¬ x0 ≤ x := by omega
       simp [h, h', h2])
    | (have h2 : x0 ≤ x := by omega
       by_cases h3 : 8 ≤ x - x0
       · have : b.getMsbD (x - x0) = false := by simp [BitVec.getMsbD]; omega
         simp [h, h', h2, this]
       · simp [h, h', h2, h3]; try omega)

theorem FrameBuffer.row_setRow (fb : FrameBuffer) (y z : Nat) (r : BitVec 64) :
    (fb.setRow y r).row z = if z = y ∧ z < 32 then r else fb.row z := by
  by_cases hz : z < 32
  · simp only [FrameBuffer.row, FrameBuffer.setRow, hz, dif_pos, and_true, Vector.getElem_setIfInBounds, eq_comm (a := z)]
  · simp [FrameBuffer.row, hz]

/-- A row's draw, pixel by pixel: exclusive or with the sprite byte on row `y`, nothing elsewhere. -/
theorem FrameBuffer.pixel_xorRow (fb : FrameBuffer) (x0 y x z : Nat) (b : Byte) :
    (fb.xorRow x0 y b).1.pixel x z = (fb.pixel x z ^^ (decide (z = y ∧ z < 32) && (spriteRow b x0).getMsbD x)) := by
  rw [FrameBuffer.xorRow, FrameBuffer.pixel, FrameBuffer.row_setRow]
  split
  · next h =>
    obtain ⟨rfl, hz⟩ := h
    simp [FrameBuffer.pixel, BitVec.getMsbD_xor, hz]
  · next h => simp [FrameBuffer.pixel, h]

/-- Two rows meet somewhere exactly when their conjunction is not zero. -/
theorem and_ne_zero_iff (a b : BitVec 64) : (a &&& b != 0) = true ↔ ∃ x, a.getMsbD x = true ∧ b.getMsbD x = true := by
  rw [bne_iff_ne, ne_eq, not_iff_comm]
  constructor
  · intro h
    apply BitVec.eq_of_getMsbD_eq
    intro i hi
    rw [BitVec.getMsbD_and]
    by_contra hc
    exact h ⟨i, by simpa using hc⟩
  · rintro h ⟨x, ha, hb⟩
    have : (a &&& b).getMsbD x = true := by rw [BitVec.getMsbD_and, ha, hb]; rfl
    rw [h] at this
    simp at this

/-- A row's draw turns a pixel off exactly when a sprite bit meets a pixel that is on (R174). -/
theorem FrameBuffer.xorRow_hit (fb : FrameBuffer) (x0 y : Nat) (b : Byte) :
    (fb.xorRow x0 y b).2 = true ↔ ∃ x, fb.pixel x y = true ∧ (spriteRow b x0).getMsbD x = true :=
  and_ne_zero_iff _ _

/-- A draw, pixel by pixel: exclusive or with the byte of that row, where the draw has one (R172). -/
theorem FrameBuffer.pixel_drawRows (fb : FrameBuffer) (x0 y x z : Nat) (bs : List Byte) :
    (fb.drawRows x0 y bs).1.pixel x z =
      (fb.pixel x z ^^ (decide (y ≤ z ∧ z < 32) && (bs[z - y]?.any fun b => (spriteRow b x0).getMsbD x))) := by
  induction bs generalizing fb y with
  | nil => simp [FrameBuffer.drawRows]
  | cons b bs ih =>
    rw [FrameBuffer.drawRows]
    simp only
    rw [ih, FrameBuffer.pixel_xorRow]
    by_cases h1 : z = y
    · subst h1
      have : ¬ z + 1 ≤ z := by omega
      simp [this]
    · by_cases h2 : y ≤ z
      · have h3 : y + 1 ≤ z := by omega
        have h4 : z - y = (z - (y + 1)) + 1 := by omega
        simp [h1, h2, h3, h4]
      · have h3 : ¬ y + 1 ≤ z := by omega
        simp [h1, h2, h3]

/-- A draw turns a pixel off exactly when a sprite bit meets a pixel that was on before the draw: each pixel is touched at most
once (R174, R175). -/
theorem FrameBuffer.drawRows_hit (fb : FrameBuffer) (x0 y : Nat) (bs : List Byte) :
    (fb.drawRows x0 y bs).2 = true ↔
      ∃ x z, y ≤ z ∧ fb.pixel x z = true ∧ (bs[z - y]?.any fun b => (spriteRow b x0).getMsbD x) = true := by
  induction bs generalizing fb y with
  | nil => simp [FrameBuffer.drawRows]
  | cons b bs ih =>
    rw [FrameBuffer.drawRows]
    simp only [Bool.or_eq_true]
    rw [ih, FrameBuffer.xorRow_hit]
    constructor
    · rintro (⟨x, hp, hs⟩ | ⟨x, z, hz, hp, hs⟩)
      · exact ⟨x, y, le_refl y, hp, by simpa using hs⟩
      · rw [FrameBuffer.pixel_xorRow] at hp
        have h1 : ¬ z = y := by omega
        have h4 : z - y = (z - (y + 1)) + 1 := by omega
        exact ⟨x, z, by omega, by simpa [h1] using hp, by rw [h4]; simpa using hs⟩
    · rintro ⟨x, z, hz, hp, hs⟩
      by_cases h1 : z = y
      · subst h1
        exact Or.inl ⟨x, hp, by simpa using hs⟩
      · have h4 : z - y = (z - (y + 1)) + 1 := by omega
        rw [h4] at hs
        refine Or.inr ⟨x, z, by omega, ?_, by simpa using hs⟩
        rw [FrameBuffer.pixel_xorRow]
        simpa [h1] using hp

/-- No pixel is on below row 31 or right of column 63. -/
theorem FrameBuffer.pixel_offScreen (fb : FrameBuffer) (x z : Nat) (h : 64 ≤ x ∨ 32 ≤ z) : fb.pixel x z = false := by
  unfold FrameBuffer.pixel FrameBuffer.row
  split
  · have : 64 ≤ x := by omega
    simp [BitVec.getMsbD]; omega
  · simp

/-- Clear turns every pixel off (R171). -/
@[simp] theorem FrameBuffer.pixel_clear (x z : Nat) : FrameBuffer.clear.pixel x z = false := by
  unfold FrameBuffer.pixel FrameBuffer.row FrameBuffer.clear
  split <;> simp

/-- Frame buffers that show the same picture are equal. -/
theorem FrameBuffer.ext_pixel {f g : FrameBuffer} (h : ∀ x y, f.pixel x y = g.pixel x y) : f = g := by
  apply Vector.ext
  intro y hy
  apply BitVec.eq_of_getMsbD_eq
  intro x _
  simpa [FrameBuffer.pixel, FrameBuffer.row, hy] using h x y

end Sys2Proof.Machine
end

