-- ==== Sys2Proof/Laws/Frame.lean ====
section
/-! SUPPORT. How frames compose, and the frame of each named update: a claim about an instruction's frame chains these. -/

namespace Sys2Proof.Machine

/-! ### Frames compose -/

theorem OnlyChanges.refl (W : Part → Prop) (s : State) : OnlyChanges W s s := ⟨fun _ _ => rfl, rfl⟩

theorem OnlyChanges.mono {W W' : Part → Prop} {s t : State} (h : OnlyChanges W s t) (hw : ∀ p, W p → W' p) :
    OnlyChanges W' s t := ⟨fun p hp => h.1 p fun hp' => hp (hw p hp'), h.2⟩

theorem OnlyChanges.trans {W : Part → Prop} {s t u : State} (h : OnlyChanges W s t) (h' : OnlyChanges W t u) :
    OnlyChanges W s u := ⟨fun p hp => (h'.1 p hp).trans (h.1 p hp), h'.2.trans h.2⟩

/-! ### Each update's frame -/

theorem onlyChanges_setPc {W : Part → Prop} (s : State) (a : Word) (h : W .pc) : OnlyChanges W s (s.setPc a) := by
  refine ⟨fun p hp => ?_, rfl⟩
  cases p <;> first | rfl | exact absurd h hp

theorem onlyChanges_advance {W : Part → Prop} (s : State) (h : W .pc) : OnlyChanges W s s.advance :=
  onlyChanges_setPc s s.npc h

theorem onlyChanges_skipIf {W : Part → Prop} (s : State) (c : Bool) (h : W .pc) : OnlyChanges W s (s.skipIf c) := by
  rw [State.skipIf_eq]; exact onlyChanges_setPc s _ h

theorem onlyChanges_writeV {W : Part → Prop} (s : State) (r : Nibble) (b : Byte) (h : W (.v r)) :
    OnlyChanges W s (s.writeV r b) := by
  refine ⟨fun p hp => ?_, rfl⟩
  cases p with
  | v q =>
    have hq : q ≠ r := fun e => hp (e ▸ h)
    simp [State.look, State.readV_writeV_of_ne s b hq]
  | _ => rfl

theorem onlyChanges_i {W : Part → Prop} (s : State) (a : Word) (h : W .i) : OnlyChanges W s { s with i := a } := by
  refine ⟨fun p hp => ?_, rfl⟩
  cases p <;> first | rfl | exact absurd h hp

theorem onlyChanges_dt {W : Part → Prop} (s : State) (b : Byte) (h : W .dt) : OnlyChanges W s { s with dt := b } := by
  refine ⟨fun p hp => ?_, rfl⟩
  cases p <;> first | rfl | exact absurd h hp

theorem onlyChanges_st {W : Part → Prop} (s : State) (b : Byte) (h : W .st) : OnlyChanges W s { s with st := b } := by
  refine ⟨fun p hp => ?_, rfl⟩
  cases p <;> first | rfl | exact absurd h hp

theorem onlyChanges_fsm {W : Part → Prop} (s : State) (f : Fsm) (h : W .fsm) : OnlyChanges W s { s with fsm := f } := by
  refine ⟨fun p hp => ?_, rfl⟩
  cases p <;> first | rfl | exact absurd h hp

theorem onlyChanges_mem {W : Part → Prop} (s : State) (m : Memory) (h : ∀ a, ¬ W (.mem a) → m.read a = s.mem.read a) :
    OnlyChanges W s { s with mem := m } := by
  refine ⟨fun p hp => ?_, rfl⟩
  cases p with
  | mem a => exact congrArg BitVec.toNat (h a hp)
  | _ => rfl

theorem onlyChanges_fb {W : Part → Prop} (s : State) (f : FrameBuffer)
    (h : ∀ x y, ¬ W (.pixel x y) → f.pixel x y = s.fb.pixel x y) : OnlyChanges W s { s with fb := f } := by
  refine ⟨fun p hp => ?_, rfl⟩
  cases p with
  | pixel x y => exact congrArg Bool.toNat (h x y hp)
  | _ => rfl

theorem onlyChanges_loadLowRegs {W : Part → Prop} (s : State) (x : Nibble) (h : ∀ r : Nibble, r.toNat ≤ x.toNat → W (.v r)) :
    OnlyChanges W s (s.loadLowRegs x) := by
  refine ⟨fun p hp => ?_, rfl⟩
  cases p with
  | v q =>
    have hq : ¬ q.toNat ≤ x.toNat := fun e => hp (h q e)
    simp [State.look, State.readV_loadLowRegs, hq]
  | _ => simp [State.look, State.keyDown]

theorem onlyChanges_fatal {W : Part → Prop} (s : State) (c : Halt) (a : Nat) (h : W .halt) (h' : W .errAddr) :
    OnlyChanges W s (s.fatal c a) := by
  refine ⟨fun p hp => ?_, rfl⟩
  cases p <;> first | rfl | exact absurd h hp | exact absurd h' hp

/-- Entry into a fatal condition, said once: the cause, the address, nothing else (R212). -/
theorem stoppedBy_fatal (s : State) (c : Halt) {a : Nat} (h : a < 2 ^ 17) : StoppedBy c a s (s.fatal c a) :=
  ⟨rfl, by rw [State.fatal_errAddr, BitVec.toNat_ofNat, Nat.mod_eq_of_lt h], onlyChanges_fatal s c a (Or.inl rfl) (Or.inr rfl)⟩

end Sys2Proof.Machine
end

