-- ==== Sys2Proof/Laws/Memory.lean ====
section
/-! SUPPORT. The laws of the memory: read after write, the canonical form, and the range check. -/

namespace Sys2Proof.Machine

/-! ### Reading after writing -/

theorem Memory.unlist_cons_self (a : Nat) (w : Byte) (m : Memory) : Memory.unlist ((a, w) :: m) a = Memory.unlist m a := by
  simp [Memory.unlist]

theorem Memory.unlist_cons_of_ne {a b : Nat} (h : b ≠ a) (w : Byte) (m : Memory) :
    Memory.unlist ((b, w) :: m) a = (b, w) :: Memory.unlist m a := by
  simp [Memory.unlist, h]

theorem Memory.mem_unlist {m : Memory} {a : Nat} {c : Host.Cell} (h : c ∈ Memory.unlist m a) : c.1 ≠ a := by
  simpa using (List.mem_filter.1 h).2

theorem Memory.read_cons (b t : Nat) (w : Byte) (m : Memory) :
    Memory.read ((b, w) :: m) t = if b = t then w else Memory.read m t := rfl

theorem Memory.place_cons (b a : Nat) (w v : Byte) (m : Memory) :
    Memory.place ((b, w) :: m) a v = if b < a then (b, w) :: Memory.place m a v else (a, v) :: (b, w) :: m := rfl

theorem Memory.read_unlist (m : Memory) (a t : Nat) :
    Memory.read (Memory.unlist m a) t = if t = a then Memory.unlisted a else Memory.read m t := by
  induction m with
  | nil => by_cases h : t = a <;> simp [Memory.unlist, Memory.read, h]
  | cons c m ih =>
    obtain ⟨b, w⟩ := c
    by_cases hb : b = a
    · subst hb
      rw [Memory.unlist_cons_self, ih, Memory.read_cons]
      by_cases ht : t = b <;> simp [ht, eq_comm (a := b)]
    · rw [Memory.unlist_cons_of_ne hb, Memory.read_cons, Memory.read_cons, ih]
      by_cases ht : b = t
      · subst ht; simp [hb]
      · simp [ht]

theorem Memory.read_place (m : Memory) (a t : Nat) (v : Byte) (h : ∀ c ∈ m, c.1 ≠ a) :
    Memory.read (Memory.place m a v) t = if t = a then v else Memory.read m t := by
  induction m with
  | nil => by_cases ht : t = a <;> simp [Memory.place, Memory.read, ht, eq_comm (a := a)]
  | cons c m ih =>
    obtain ⟨b, w⟩ := c
    have hb : b ≠ a := h (b, w) (by simp)
    have ih := ih fun c hc => h c (by simp [hc])
    rw [Memory.place_cons]
    split
    · rw [Memory.read_cons, ih, Memory.read_cons]
      by_cases ht : b = t
      · subst ht; simp [hb]
      · simp [ht]
    · rw [Memory.read_cons]
      by_cases ht : t = a
      · simp [ht]
      · simp [ht, eq_comm (a := a)]

/-- Reading after a write: the byte written at its address, what was there before at every other. It holds of any list. -/
theorem Memory.read_write (m : Memory) (a t : Nat) (v : Byte) :
    (m.write a v).read t = if t = a then v else m.read t := by
  by_cases hv : v = Memory.unlisted a
  · simp [Memory.write, hv, Memory.read_unlist]
  · rw [Memory.write, if_neg hv, Memory.read_place _ _ _ _ fun c hc => Memory.mem_unlist hc, Memory.read_unlist]
    by_cases ht : t = a <;> simp [ht]

/-- Reading after a block store: the stored bytes in their places, every other address as before. -/
theorem Memory.read_writeBytes (m : Memory) (a t : Nat) (bs : List Byte) :
    (m.writeBytes a bs).read t = if h : a ≤ t ∧ t - a < bs.length then bs[t - a] else m.read t := by
  induction bs generalizing m a with
  | nil => simp [Memory.writeBytes]
  | cons b bs ih =>
    rw [Memory.writeBytes, ih, Memory.read_write]
    by_cases ht : t = a
    · subst ht; simp
    · by_cases hr : a + 1 ≤ t ∧ t - (a + 1) < bs.length
      · have h1 : a ≤ t ∧ t - a < (b :: bs).length := by simp; omega
        have h2 : t - a = (t - (a + 1)) + 1 := by omega
        rw [dif_pos hr, dif_pos h1]
        simp [h2]
      · have h1 : ¬ (a ≤ t ∧ t - a < (b :: bs).length) := by simp; omega
        rw [dif_neg hr, dif_neg h1, if_neg ht]

theorem Memory.length_readBytes (m : Memory) (a n : Nat) : (m.readBytes a n).length = n := by
  induction n generalizing a with
  | zero => rfl
  | succ n ih => simp [Memory.readBytes, ih]

theorem Memory.readBytes_getElem (m : Memory) (a n k : Nat) (h : k < (m.readBytes a n).length) :
    (m.readBytes a n)[k] = m.read (a + k) := by
  induction n generalizing a k with
  | zero => simp [Memory.readBytes] at h
  | succ n ih =>
    cases k with
    | zero => simp [Memory.readBytes]
    | succ k =>
      have : a + 1 + k = a + (k + 1) := by omega
      simp [Memory.readBytes, ih, this]

/-! ### The canonical form -/

theorem Memory.wfFrom_cons (lo a : Nat) (b : Byte) (m : Memory) :
    Memory.wfFrom lo ((a, b) :: m) = true ↔
      lo ≤ a ∧ a < 4096 ∧ b ≠ Memory.unlisted a ∧ Memory.wfFrom (a + 1) m = true := by
  simp [Memory.wfFrom, and_assoc]

theorem Memory.wfFrom_mono {lo lo' : Nat} (h : lo' ≤ lo) {m : Memory} (hm : m.wfFrom lo = true) : m.wfFrom lo' = true := by
  cases m with
  | nil => rfl
  | cons c m =>
    obtain ⟨a, b⟩ := c
    rw [Memory.wfFrom_cons] at hm ⊢
    exact ⟨by omega, hm.2⟩

theorem Memory.wfFrom_unlist {lo : Nat} (a : Nat) {m : Memory} (hm : Memory.wfFrom lo m = true) :
    Memory.wfFrom lo (Memory.unlist m a) = true := by
  induction m generalizing lo with
  | nil => rfl
  | cons c m ih =>
    obtain ⟨b, w⟩ := c
    rw [Memory.wfFrom_cons] at hm
    by_cases hb : b = a
    · rw [hb, Memory.unlist_cons_self]
      exact Memory.wfFrom_mono (show lo ≤ b + 1 by omega) (ih hm.2.2.2)
    · rw [Memory.unlist_cons_of_ne hb, Memory.wfFrom_cons]
      exact ⟨hm.1, hm.2.1, hm.2.2.1, ih hm.2.2.2⟩

theorem Memory.wfFrom_place {lo a : Nat} {v : Byte} {m : Memory} (hm : Memory.wfFrom lo m = true) (hlo : lo ≤ a)
    (ha : a < 4096) (hv : v ≠ Memory.unlisted a) (hn : ∀ c ∈ m, c.1 ≠ a) :
    Memory.wfFrom lo (Memory.place m a v) = true := by
  induction m generalizing lo with
  | nil => exact (Memory.wfFrom_cons ..).2 ⟨hlo, ha, hv, rfl⟩
  | cons c m ih =>
    obtain ⟨b, w⟩ := c
    have hb : b ≠ a := hn (b, w) (by simp)
    rw [Memory.wfFrom_cons] at hm
    rw [Memory.place_cons]
    split
    · rw [Memory.wfFrom_cons]
      exact ⟨hm.1, hm.2.1, hm.2.2.1, ih hm.2.2.2 (by omega) fun c hc => hn c (by simp [hc])⟩
    · rw [Memory.wfFrom_cons, Memory.wfFrom_cons]
      exact ⟨hlo, ha, hv, by omega, hm.2⟩

/-- A write in range keeps the canonical form. -/
theorem Memory.wf_write {m : Memory} {a : Nat} (v : Byte) (hm : m.wf = true) (ha : a < 4096) :
    (m.write a v).wf = true := by
  rw [Memory.write]
  split
  · exact Memory.wfFrom_unlist a hm
  · next hv => exact Memory.wfFrom_place (Memory.wfFrom_unlist a hm) (Nat.zero_le a) ha hv fun c hc => Memory.mem_unlist hc

/-- A block store in range keeps the canonical form. -/
theorem Memory.wf_writeBytes {m : Memory} {a : Nat} {bs : List Byte} (hm : m.wf = true)
    (ha : a + bs.length ≤ 4096) : (m.writeBytes a bs).wf = true := by
  induction bs generalizing m a with
  | nil => exact hm
  | cons b bs ih =>
    simp only [List.length_cons] at ha
    exact ih (Memory.wf_write b hm (by omega)) (by omega)

/-- The memory right after reset is canonical. -/
theorem Memory.wf_reset : State.reset.mem.wf = true := rfl

/-- Below its first address a canonical memory lists nothing. -/
theorem Memory.read_of_wfFrom {lo t : Nat} {m : Memory} (hm : Memory.wfFrom lo m = true) (ht : t < lo) :
    Memory.read m t = Memory.unlisted t := by
  induction m generalizing lo with
  | nil => rfl
  | cons c m ih =>
    obtain ⟨a, b⟩ := c
    rw [Memory.wfFrom_cons] at hm
    have : a ≠ t := by omega
    simp [Memory.read, this, ih hm.2.2.2 (show t < a + 1 by omega)]

/-- Storing what the addresses read as anyway lists nothing. -/
theorem Memory.writeBytes_unlisted (a : Nat) (bs : List Byte)
    (h : ∀ k (hk : k < bs.length), bs[k] = Memory.unlisted (a + k)) : Memory.writeBytes [] a bs = [] := by
  induction bs generalizing a with
  | nil => rfl
  | cons b bs ih =>
    have hb : b = Memory.unlisted a := h 0 (Nat.succ_pos _)
    rw [Memory.writeBytes, show Memory.write [] a b = [] by simp [Memory.write, hb, Memory.unlist]]
    refine ih (a + 1) fun k hk => ?_
    rw [show a + 1 + k = a + (k + 1) by omega]
    exact h (k + 1) (Nat.succ_lt_succ hk)

/-! ### The range check -/

theorem firstOutOfRange_eq_none {base n : Nat} : firstOutOfRange base n = none ↔ n = 0 ∨ base + n ≤ 4096 := by
  unfold firstOutOfRange; split <;> simp_all

theorem firstOutOfRange_of_fits {base n : Nat} (h : base + n ≤ 4096) : firstOutOfRange base n = none :=
  firstOutOfRange_eq_none.2 (Or.inr h)

theorem firstOutOfRange_of_exceeds {base n : Nat} (h0 : n ≠ 0) (h : 4096 < base + n) :
    firstOutOfRange base n = some (max base 4096) := by
  unfold firstOutOfRange; rw [if_neg (by simp only [Config.memCap]; omega)]

/-- All that an instruction with a memory range can do, in range: its effect. -/
theorem State.accessing_of_fits (s : State) {base n : Nat} (t : State) (h : n = 0 ∨ base + n ≤ 4096) :
    s.accessing base n t = .next t := by
  rw [State.accessing, firstOutOfRange_eq_none.2 h]

/-- All that an instruction with a memory range can do, out of range: stop with MEM_RANGE at the lowest offending address. -/
theorem State.accessing_of_exceeds (s : State) {base n : Nat} (t : State) (h0 : n ≠ 0) (h : 4096 < base + n) :
    s.accessing base n t = .next (s.fatal .memRange (max base 4096)) := by
  rw [State.accessing, firstOutOfRange_of_exceeds h0 h]

/-- The range check said once: the access is in range and the effect happens, or it is not and the core stops. -/
theorem State.accessing_cases (s : State) (base n : Nat) (t : State) :
    ((n = 0 ∨ base + n ≤ 4096) ∧ s.accessing base n t = .next t) ∨
      (n ≠ 0 ∧ 4096 < base + n ∧ s.accessing base n t = .next (s.fatal .memRange (max base 4096))) := by
  by_cases h : n = 0 ∨ base + n ≤ 4096
  · exact Or.inl ⟨h, s.accessing_of_fits t h⟩
  · exact Or.inr ⟨by omega, by omega, s.accessing_of_exceeds t (by omega) (by omega)⟩

end Sys2Proof.Machine
end

