-- ==== Sys2Proof/Laws/Events.lean ====
section
/-! SUPPORT. What the key operations, the events and a step do, said once: every proof about a step cites these. -/

namespace Sys2Proof.Machine

/-! ### Keys -/

/-- SetKey writes one key bit (R99). -/
theorem State.keyDown_writeKey (s : State) (k j : Nibble) (p : Bool) :
    (s.writeKey k p).keyDown j = if j = k then p else s.keyDown j := by
  have hj : j.toNat < 16 := j.isLt
  cases p <;> by_cases h : j = k
  · subst h; simp [State.writeKey, State.keyDown]
  · have h' : ¬ j.toNat = k.toNat := fun e => h (BitVec.eq_of_toNat_eq e)
    simp [State.writeKey, State.keyDown, h, h', hj]
  · subst h; simp [State.writeKey, State.keyDown, hj]
  · have h' : ¬ j.toNat = k.toNat := fun e => h (BitVec.eq_of_toNat_eq e)
    simp [State.writeKey, State.keyDown, h, h', hj]

theorem onlyChanges_writeKey {W : Part → Prop} (s : State) (k : Nibble) (p : Bool) (h : W (.key k)) :
    OnlyChanges W s (s.writeKey k p) := by
  refine ⟨fun q hq => ?_, rfl⟩
  cases q with
  | key j =>
    have : j ≠ k := fun e => hq (e ▸ h)
    simp [State.look, State.keyDown_writeKey, this]
  | _ => rfl

/-- FX0A takes the lowest pressed key (R192): it is down, and every lower one is up. -/
theorem State.lowestKey_eq_some {s : State} {k : Nibble} :
    s.lowestKey = some k ↔ s.keyDown k = true ∧ ∀ j : Nibble, j.toNat < k.toNat → s.keyDown j = false := by
  have hk : k.toNat < 16 := k.isLt
  simp only [State.lowestKey, Option.map_eq_some_iff, List.find?_range_eq_some, State.keyDown]
  constructor
  · rintro ⟨n, ⟨h1, h2, h3⟩, rfl⟩
    simp only [List.mem_range] at h2
    rw [BitVec.toNat_ofNat, Nat.mod_eq_of_lt h2]
    exact ⟨h1, fun j hj => by simpa using h3 j.toNat hj⟩
  · rintro ⟨h1, h2⟩
    refine ⟨k.toNat, ⟨h1, List.mem_range.2 hk, fun n hn => ?_⟩, by simp⟩
    have := h2 (BitVec.ofNat 4 n) (by rw [BitVec.toNat_ofNat, Nat.mod_eq_of_lt (by omega)]; exact hn)
    rw [BitVec.toNat_ofNat, Nat.mod_eq_of_lt (show n < 2 ^ 4 by omega)] at this
    simpa using this

/-- No key is down. -/
theorem State.lowestKey_eq_none {s : State} : s.lowestKey = none ↔ ∀ k : Nibble, s.keyDown k = false := by
  simp only [State.lowestKey, Option.map_eq_none_iff, List.find?_eq_none, List.mem_range, State.keyDown]
  constructor
  · intro h k
    simpa using h k.toNat k.isLt
  · intro h n hn
    have := h (BitVec.ofNat 4 n)
    rw [BitVec.toNat_ofNat, Nat.mod_eq_of_lt (show n < 2 ^ 4 by omega)] at this
    simpa using this

/-! ### Steps and events -/

/-- One step runs the next event, in the state that has taken it. -/
theorem step_eq (s : State) : step s = s.takeEvent.applyEvent s.nextEvent := rfl

/-- A Step puts its byte on the input of the core (R90). -/
theorem State.takeEvent_rnd {s : State} {b : Byte} (h : s.nextEvent = .step b) : s.takeEvent.outside.rnd = b := by
  have h' : s.outside.nextEvent = .step b := h
  simp only [State.takeEvent, Outside.raised, h']

/-- A host with no event to come raises a Step with a free byte (log 5). -/
theorem State.nextEvent_of_nil {s : State} (h : s.outside.pending = []) :
    s.nextEvent = .step (Config.rnd s.outside.supplied) := by
  simp [State.nextEvent, Outside.nextEvent, Outside.freeStep, h]

/-- A host with an event to come raises it. -/
theorem State.nextEvent_of_cons {s : State} {e : Event} {es : List Event} (h : s.outside.pending = e :: es) : s.nextEvent = e := by
  simp [State.nextEvent, Outside.nextEvent, h]

/-- `withStepNext` does what its name says. -/
theorem State.nextEvent_withStepNext (s : State) : ∃ b, s.withStepNext.nextEvent = .step b := by
  unfold State.withStepNext
  split
  · next b h => exact ⟨b, h⟩
  · exact ⟨_, rfl⟩

@[simp] theorem State.keyDown_takeEvent (s : State) (k : Nibble) : s.takeEvent.keyDown k = s.keyDown k := rfl
@[simp] theorem State.readV_takeEvent (s : State) (r : Nibble) : s.takeEvent.readV r = s.readV r := rfl
/-- No part of the core lies outside it. -/
@[simp] theorem State.look_outside (s : State) (o : Outside) (p : Part) : State.look { s with outside := o } p = s.look p := by
  cases p <;> rfl
@[simp] theorem State.look_takeEvent (s : State) (p : Part) : s.takeEvent.look p = s.look p := by cases p <;> rfl

/-- The three behaviours of Step (R91). -/
theorem State.stepEvent_halted {s : State} (h : s.halt ≠ .running) : s.stepEvent = .next s := by
  unfold State.stepEvent
  split <;> simp_all

theorem State.stepEvent_awaiting {s : State} (h : s.halt = .running) (hf : s.fsm = .awaitRelease) :
    s.stepEvent = .next s.stepAwait := by
  simp [State.stepEvent, h, hf]

theorem State.stepEvent_ready {s : State} (h : s.halt = .running) (hf : s.fsm = .ready) : s.stepEvent = s.stepExecute := by
  simp [State.stepEvent, h, hf]

/-- StepExecute, the fetch in range (R92). -/
theorem State.stepExecute_fetched {s : State} (h : s.pc.toNat ≤ 4094) :
    s.stepExecute = exec (decodeWord (s.mem.readWord s.pc.toNat)) s := by
  rw [State.stepExecute, firstOutOfRange_of_fits (show s.pc.toNat + 2 ≤ 4096 by omega)]

/-- StepExecute, the fetch out of range: MEM_RANGE at the lowest address of the two that is (R53, R211). -/
theorem State.stepExecute_fetchFatal {s : State} (h : 4095 ≤ s.pc.toNat) :
    s.stepExecute = .next (s.fatal .memRange (max s.pc.toNat 4096)) := by
  rw [State.stepExecute, firstOutOfRange_of_exceeds (by omega) (show 4096 < s.pc.toNat + 2 by omega)]

/-- The two outcomes of StepAwait (R97). -/
theorem State.stepAwait_down {s : State} (h : s.keyDown s.wk = true) : s.stepAwait = s := by simp [State.stepAwait, h]

theorem State.stepAwait_up {s : State} (h : s.keyDown s.wk = false) :
    s.stepAwait = { s.writeV s.wx (zextKey s.wk) with fsm := .ready }.advance := by simp [State.stepAwait, h]

/-! ### Reset -/

/-- The default font is what the low addresses read as unlisted, so the memory of a default Reset lists nothing. -/
theorem fontMemory_standard : fontMemory Config.font = [] :=
  Memory.writeBytes_unlisted 0 _ fun k hk => by
    have : k < 80 := by simpa using hk
    simp [Memory.unlisted, this]

/-- The memory with the font alone is canonical, whatever the font. -/
theorem fontMemory_wf (font : Vector Byte Config.fontLen) : (fontMemory font).wf = true :=
  Memory.wf_writeBytes rfl (by simp [Config.fontLen])

/-- The memory that a Reset leaves is canonical, whatever the parameters and the image. -/
theorem State.wf_resetEvent (s : State) (p : Config.Params) (img : List Byte) : (s.resetEvent p img).mem.wf = true := by
  have ho := p.origin.isLt
  unfold State.resetEvent
  dsimp only
  split
  · next h =>
    simp only [imageFits, Config.memCap, decide_eq_true_eq] at h
    exact Memory.wf_writeBytes (fontMemory_wf p.font) (by omega)
  · exact fontMemory_wf p.font

/-- `State.reset` is the Reset of the empty image with the default parameters (R35). -/
theorem State.cleared_standard (s : State) :
    s.cleared Config.Params.standard = { State.reset with outside := s.outside } := by
  have : fontMemory Config.Params.standard.font = [] := fontMemory_standard
  simp only [State.cleared, this, State.reset]

end Sys2Proof.Machine
end

