-- ==== Sys2Proof/Laws/Meanings.lean ====
section
/-! SUPPORT. What the operand forms are as numbers, and what each meaning with more than one outcome answers in each of its cases:
proofs cite these and do not unfold the meanings. -/

namespace Sys2Proof.Machine

/-! ### Operand forms as numbers -/

@[simp] theorem toNat_zextAddr (nnn : Addr12) : (zextAddr nnn).toNat = nnn.toNat :=
  BitVec.toNat_setWidth_of_le (by decide)

@[simp] theorem toNat_zextByte (b : Byte) : (zextByte b).toNat = b.toNat :=
  BitVec.toNat_setWidth_of_le (by decide)

@[simp] theorem toNat_zextKey (k : Nibble) : (zextKey k).toNat = k.toNat :=
  BitVec.toNat_setWidth_of_le (by decide)

theorem keyDown_keyNumber (s : State) (b : Byte) : s.keyDown (keyNumber b) = s.key.getLsbD (b.toNat % 16) := by
  simp [State.keyDown, keyNumber]

/-- The address after an instruction that a fetch can reach (R93). -/
theorem State.toNat_npc {s : State} (h : s.pc.toNat ≤ 4094) : s.npc.toNat = s.pc.toNat + 2 := by
  simp [State.npc, BitVec.toNat_add]; omega

theorem bcdDigits_toNat (b : Byte) :
    (bcdDigits b).map BitVec.toNat = [b.toNat / 100, b.toNat / 10 % 10, b.toNat % 10] := by
  have := b.isLt
  simp [bcdDigits]; omega

/-! ### The call stack -/

theorem onlyChanges_stack {W : Part → Prop} (s : State) {k : Nat} (hk : k < 12) (a : Word) (h : W (.slot ⟨k, hk⟩)) :
    OnlyChanges W s { s with stack := s.stack.set k a } := by
  refine ⟨fun p hp => ?_, rfl⟩
  cases p with
  | slot j =>
    have : k ≠ j.val := by rintro rfl; exact hp h
    simp [State.look, this]
  | _ => rfl

theorem onlyChanges_sp {W : Part → Prop} (s : State) (k : Fin 13) (h : W .sp) : OnlyChanges W s { s with sp := k } := by
  refine ⟨fun p hp => ?_, rfl⟩
  cases p <;> first | rfl | exact absurd h hp

/-- A call with room on the stack (R112). -/
theorem execCall_pushes (nnn : Addr12) {s : State} (h : s.sp.val < 12) :
    execCall nnn s =
      .next ({ s with stack := s.stack.set s.sp.val s.npc, sp := ⟨s.sp.val + 1, by omega⟩ }.setPc (zextAddr nnn)) := by
  rw [execCall, dif_neg (by omega)]

/-- A call with twelve live entries (R112). -/
theorem execCall_overflows (nnn : Addr12) {s : State} (h : s.sp.val = 12) :
    execCall nnn s = .next (s.fatal .stackOverflow 0) := by
  rw [execCall, dif_pos h]

/-- A return with a live entry (R110). -/
theorem execRet_pops (g : Nibble) {s : State} {d : Nat} (h : s.sp.val = d + 1) (hd : d < 12) :
    execRet g s = .next ({ s with sp := ⟨d, by omega⟩ }.setPc (s.stack[d]'hd)) := by
  have : s.sp.val - 1 = d := by omega
  rw [execRet, dif_neg (by omega)]
  simp [this]

/-- A return with an empty stack (R110). -/
theorem execRet_underflows (g : Nibble) {s : State} (h : s.sp.val = 0) : execRet g s = .next (s.fatal .stackUnderflow 0) := by
  rw [execRet, dif_pos h]

/-! ### The draw -/

/-- The state a draw leaves when the rows it draws are in range (R172). -/
def State.drawn (s : State) (x y n : Nibble) : State :=
  let r := s.fb.drawRows (s.drawColumn x) (s.drawRow y) (s.mem.readBytes (s.effAddr 0) (s.drawCount y n))
  ({ s with fb := r.1 }.writeV vf (flagByte r.2)).advance

theorem execDrw_eq (x y n : Nibble) (s : State) :
    execDrw x y n s = s.accessing (s.effAddr 0) (s.drawCount y n) (s.drawn x y n) := rfl

end Sys2Proof.Machine
end

