-- ==== Sys2Proof/Laws/PerInstr.lean ====
section
/-! SUPPORT. Statements made for each instruction, one lemma per constructor of Instr. -/

/-! ### RoundTrip: decoding an encoded well-formed instruction gives it back, every operand at every value -/

namespace Sys2Proof.Laws.RoundTrip

/-- Decoding the word that encodes a well-formed instruction gives the instruction back. -/
def Statement (i : Instr) : Prop := i.wf = true → decodeWord (encode i) = i

theorem cls (g : Nibble) : Statement (.cls g) := fun _ => by simp [encode, decodeWord, decodeGroup0]

theorem ret (g : Nibble) : Statement (.ret g) := fun _ => by simp [encode, decodeWord, decodeGroup0]

theorem jp (nnn : Addr12) : Statement (.jp nnn) := fun _ => by simp [encode, decodeWord]

theorem call (nnn : Addr12) : Statement (.call nnn) := fun _ => by simp [encode, decodeWord]

theorem seImm (x : Nibble) (nn : Byte) : Statement (.seImm x nn) := fun _ => by simp [encode, decodeWord]

theorem sneImm (x : Nibble) (nn : Byte) : Statement (.sneImm x nn) := fun _ => by simp [encode, decodeWord]

theorem seReg (x : Nibble) (y : Nibble) (g : Nibble) : Statement (.seReg x y g) := fun _ => by simp [encode, decodeWord]

theorem ldImm (x : Nibble) (nn : Byte) : Statement (.ldImm x nn) := fun _ => by simp [encode, decodeWord]

theorem addImm (x : Nibble) (nn : Byte) : Statement (.addImm x nn) := fun _ => by simp [encode, decodeWord]

theorem ldReg (x : Nibble) (y : Nibble) : Statement (.ldReg x y) := fun _ => by simp [encode, decodeWord, decodeGroup8]

theorem orReg (x : Nibble) (y : Nibble) : Statement (.orReg x y) := fun _ => by simp [encode, decodeWord, decodeGroup8]

theorem andReg (x : Nibble) (y : Nibble) : Statement (.andReg x y) := fun _ => by simp [encode, decodeWord, decodeGroup8]

theorem xorReg (x : Nibble) (y : Nibble) : Statement (.xorReg x y) := fun _ => by simp [encode, decodeWord, decodeGroup8]

theorem addReg (x : Nibble) (y : Nibble) : Statement (.addReg x y) := fun _ => by simp [encode, decodeWord, decodeGroup8]

theorem subReg (x : Nibble) (y : Nibble) : Statement (.subReg x y) := fun _ => by simp [encode, decodeWord, decodeGroup8]

theorem shr (x : Nibble) (y : Nibble) : Statement (.shr x y) := fun _ => by simp [encode, decodeWord, decodeGroup8]

theorem subnReg (x : Nibble) (y : Nibble) : Statement (.subnReg x y) := fun _ => by simp [encode, decodeWord, decodeGroup8]

theorem shl (x : Nibble) (y : Nibble) : Statement (.shl x y) := fun _ => by simp [encode, decodeWord, decodeGroup8]

theorem sneReg (x : Nibble) (y : Nibble) (g : Nibble) : Statement (.sneReg x y g) := fun _ => by simp [encode, decodeWord]

theorem ldI (nnn : Addr12) : Statement (.ldI nnn) := fun _ => by simp [encode, decodeWord]

theorem jpV0 (nnn : Addr12) : Statement (.jpV0 nnn) := fun _ => by simp [encode, decodeWord]

theorem rnd (x : Nibble) (nn : Byte) : Statement (.rnd x nn) := fun _ => by simp [encode, decodeWord]

theorem drw (x : Nibble) (y : Nibble) (n : Nibble) : Statement (.drw x y n) := fun _ => by simp [encode, decodeWord]

theorem skp (x : Nibble) : Statement (.skp x) := fun _ => by simp [encode, decodeWord, decodeGroupE]

theorem sknp (x : Nibble) : Statement (.sknp x) := fun _ => by simp [encode, decodeWord, decodeGroupE]

theorem ldVxDt (x : Nibble) : Statement (.ldVxDt x) := fun _ => by simp [encode, decodeWord, decodeGroupF]

theorem ldVxK (x : Nibble) : Statement (.ldVxK x) := fun _ => by simp [encode, decodeWord, decodeGroupF]

theorem ldDtVx (x : Nibble) : Statement (.ldDtVx x) := fun _ => by simp [encode, decodeWord, decodeGroupF]

theorem ldStVx (x : Nibble) : Statement (.ldStVx x) := fun _ => by simp [encode, decodeWord, decodeGroupF]

theorem addI (x : Nibble) : Statement (.addI x) := fun _ => by simp [encode, decodeWord, decodeGroupF]

theorem ldF (x : Nibble) : Statement (.ldF x) := fun _ => by simp [encode, decodeWord, decodeGroupF]

theorem ldB (x : Nibble) : Statement (.ldB x) := fun _ => by simp [encode, decodeWord, decodeGroupF]

theorem stRegs (x : Nibble) : Statement (.stRegs x) := fun _ => by simp [encode, decodeWord, decodeGroupF]

theorem ldRegs (x : Nibble) : Statement (.ldRegs x) := fun _ => by simp [encode, decodeWord, decodeGroupF]

theorem undefined (w : Word) : Statement (.undefined w) := fun h => decodeWord_undefined (by simpa [Instr.wf, encode] using h)

end Sys2Proof.Laws.RoundTrip
end

