-- ==== Sys2Proof/Tests/Slice0.lean ====
section
/-! SUPPORT. Tests of the model: expected results are the vectors of spec/95_test_vectors.md (their ids stand in the docstrings) and
words written out from the opcode map R76. Then, for each statement of Certificates/Slice0/Obligations.lean that has hypotheses, states
and operands that meet them. -/

open Sys2Proof
open Sys2Proof.Machine

namespace Sys2Proof.Tests

/-- The next state, if there is one. -/
def after : Result → Option State
  | .next t => some t
  | _ => none

/-- The reset state with some registers written. -/
def regs (l : List (Nibble × Byte)) : State := l.foldl (fun s p => s.writeV p.1 p.2) State.reset

/-- The state with bytes stored from an address on. -/
def poke (s : State) (a : Nat) (bs : List Byte) : State := { s with mem := s.mem.writeBytes a bs }

/-- The state with one event to come. -/
def raising (s : State) (e : Event) : State := { s with outside := { s.outside with pending := [e] } }

/-- What some parts of the state hold after one step that fetches the word. -/
def runs (s : State) (w : Nat) (ps : List Part) : Option (List Nat) :=
  (after (step (s.withFetchWord 16 w))).map fun t => ps.map t.look

/-- What some parts of the state hold after one step. -/
def steps (s : State) (ps : List Part) : Option (List Nat) := (after (step s)).map fun t => ps.map t.look

/-! ### Well-formedness: the one check an instruction term can fail -/

/-- A word that the row 6XNN matches is no `undefined` (R77). -/
theorem test_wf_refuses_defined_word : (Instr.undefined 0x6000).wf = false := by decide
/-- An ignored nibble keeps a word defined (R75). -/
theorem test_wf_refuses_ignored_bits : (Instr.undefined 0x5127).wf = false := by decide
/-- 8XYF is undefined (U6). -/
theorem test_wf_accepts_undefined_word : (Instr.undefined 0x812F).wf = true := by decide

/-! ### Decoding: a word of every row, field by field from R71, R76; the mask and the match are the row's -/

theorem test_decode_cls : (0x0AE0 : Word) &&& 0xF0FF = 0x00E0 ∧ decodeWord 0x0AE0 = .cls 0xA := by decide
theorem test_decode_ret : (0x0BEE : Word) &&& 0xF0FF = 0x00EE ∧ decodeWord 0x0BEE = .ret 0xB := by decide
theorem test_decode_jp : (0x1ABC : Word) &&& 0xF000 = 0x1000 ∧ decodeWord 0x1ABC = .jp 0xABC := by decide
theorem test_decode_call : (0x2208 : Word) &&& 0xF000 = 0x2000 ∧ decodeWord 0x2208 = .call 0x208 := by decide
theorem test_decode_seImm : (0x3A42 : Word) &&& 0xF000 = 0x3000 ∧ decodeWord 0x3A42 = .seImm 0xA 0x42 := by decide
theorem test_decode_sneImm : (0x4A43 : Word) &&& 0xF000 = 0x4000 ∧ decodeWord 0x4A43 = .sneImm 0xA 0x43 := by decide
theorem test_decode_seReg : (0x5127 : Word) &&& 0xF000 = 0x5000 ∧ decodeWord 0x5127 = .seReg 1 2 7 := by decide
theorem test_decode_ldImm : (0x6AFF : Word) &&& 0xF000 = 0x6000 ∧ decodeWord 0x6AFF = .ldImm 0xA 0xFF := by decide
theorem test_decode_addImm : (0x7F02 : Word) &&& 0xF000 = 0x7000 ∧ decodeWord 0x7F02 = .addImm 0xF 0x02 := by decide
theorem test_decode_ldReg : (0x8120 : Word) &&& 0xF00F = 0x8000 ∧ decodeWord 0x8120 = .ldReg 1 2 := by decide
theorem test_decode_orReg : (0x8341 : Word) &&& 0xF00F = 0x8001 ∧ decodeWord 0x8341 = .orReg 3 4 := by decide
theorem test_decode_andReg : (0x8562 : Word) &&& 0xF00F = 0x8002 ∧ decodeWord 0x8562 = .andReg 5 6 := by decide
theorem test_decode_xorReg : (0x8783 : Word) &&& 0xF00F = 0x8003 ∧ decodeWord 0x8783 = .xorReg 7 8 := by decide
theorem test_decode_addReg : (0x89A4 : Word) &&& 0xF00F = 0x8004 ∧ decodeWord 0x89A4 = .addReg 9 0xA := by decide
theorem test_decode_subReg : (0x8BC5 : Word) &&& 0xF00F = 0x8005 ∧ decodeWord 0x8BC5 = .subReg 0xB 0xC := by decide
theorem test_decode_shr : (0x8DE6 : Word) &&& 0xF00F = 0x8006 ∧ decodeWord 0x8DE6 = .shr 0xD 0xE := by decide
theorem test_decode_subnReg : (0x8F17 : Word) &&& 0xF00F = 0x8007 ∧ decodeWord 0x8F17 = .subnReg 0xF 1 := by decide
theorem test_decode_shl : (0x81FE : Word) &&& 0xF00F = 0x800E ∧ decodeWord 0x81FE = .shl 1 0xF := by decide
theorem test_decode_sneReg : (0x912F : Word) &&& 0xF000 = 0x9000 ∧ decodeWord 0x912F = .sneReg 1 2 0xF := by decide
theorem test_decode_ldI : (0xABCD : Word) &&& 0xF000 = 0xA000 ∧ decodeWord 0xABCD = .ldI 0xBCD := by decide
theorem test_decode_jpV0 : (0xB300 : Word) &&& 0xF000 = 0xB000 ∧ decodeWord 0xB300 = .jpV0 0x300 := by decide
theorem test_decode_rnd : (0xC30F : Word) &&& 0xF000 = 0xC000 ∧ decodeWord 0xC30F = .rnd 3 0x0F := by decide
theorem test_decode_drw : (0xD125 : Word) &&& 0xF000 = 0xD000 ∧ decodeWord 0xD125 = .drw 1 2 5 := by decide
theorem test_decode_skp : (0xE49E : Word) &&& 0xF0FF = 0xE09E ∧ decodeWord 0xE49E = .skp 4 := by decide
theorem test_decode_sknp : (0xE4A1 : Word) &&& 0xF0FF = 0xE0A1 ∧ decodeWord 0xE4A1 = .sknp 4 := by decide
theorem test_decode_ldVxDt : (0xF507 : Word) &&& 0xF0FF = 0xF007 ∧ decodeWord 0xF507 = .ldVxDt 5 := by decide
theorem test_decode_ldVxK : (0xF30A : Word) &&& 0xF0FF = 0xF00A ∧ decodeWord 0xF30A = .ldVxK 3 := by decide
theorem test_decode_ldDtVx : (0xF615 : Word) &&& 0xF0FF = 0xF015 ∧ decodeWord 0xF615 = .ldDtVx 6 := by decide
theorem test_decode_ldStVx : (0xF718 : Word) &&& 0xF0FF = 0xF018 ∧ decodeWord 0xF718 = .ldStVx 7 := by decide
theorem test_decode_addI : (0xF11E : Word) &&& 0xF0FF = 0xF01E ∧ decodeWord 0xF11E = .addI 1 := by decide
theorem test_decode_ldF : (0xF229 : Word) &&& 0xF0FF = 0xF029 ∧ decodeWord 0xF229 = .ldF 2 := by decide
theorem test_decode_ldB : (0xF333 : Word) &&& 0xF0FF = 0xF033 ∧ decodeWord 0xF333 = .ldB 3 := by decide
theorem test_decode_stRegs : (0xF355 : Word) &&& 0xF0FF = 0xF055 ∧ decodeWord 0xF355 = .stRegs 3 := by decide
theorem test_decode_ldRegs : (0xFF65 : Word) &&& 0xF0FF = 0xF065 ∧ decodeWord 0xFF65 = .ldRegs 0xF := by decide
/-- U2: an 0NNN is undefined here. -/
theorem test_decode_undefined : decodeWord 0x0123 = .undefined 0x0123 ∧ decodeWord 0xFFFF = .undefined 0xFFFF := by decide
/-- S11: the first byte is the high one. -/
theorem test_decode_bytes : decode [0x60, 0x2A, 0x7F] = .ok (.ldImm 0 0x2A, [0x7F]) := by rfl
theorem test_decode_truncated : decode [0x60] = .error .truncated := by rfl
theorem test_table_word : decodeTableWord 16 0x1ABC = some (.jp 0xABC) := by decide

/-! ### One step each -/

/-- T13 -/
theorem test_cls : runs { (regs [(0xF, 9)]) with fb := FrameBuffer.setRow FrameBuffer.clear 31 1 } 0x0AE0 [.pixel 63 31, .v 0xF, .pc] = some [0, 9, 0x202] := by decide
/-- J8 -/
theorem test_ret : runs { State.reset with sp := 1, stack := State.reset.stack.set 0 0x456 } 0x00EE [.pc, .sp, .slot 0] = some [0x456, 0, 0x456] := by decide
/-- J9 -/
theorem test_ret_empty : runs State.reset 0x00EE [.halt, .pc, .errAddr] = some [3, 0x200, 0] := by decide
/-- J1 -/
theorem test_jp : runs State.reset 0x1ABC [.pc, .sp] = some [0xABC, 0] := by decide
/-- J6 -/
theorem test_call : runs { State.reset with sp := 11 } 0x2300 [.pc, .sp, .slot 11] = some [0x300, 12, 0x202] := by decide
/-- J7 -/
theorem test_call_full : runs { State.reset with sp := 12 } 0x2300 [.halt, .pc, .sp, .errAddr] = some [2, 0x200, 12, 0] := by decide
/-- K1 -/
theorem test_seImm : runs (regs [(0xA, 0x42)]) 0x3A42 [.pc] = some [0x204] := by decide
/-- K2 -/
theorem test_seImm_not : runs (regs [(0xA, 0x43)]) 0x3A42 [.pc] = some [0x202] := by decide
/-- K4 -/
theorem test_sneImm : runs (regs [(0xA, 0x43)]) 0x4A42 [.pc] = some [0x204] := by decide
/-- K3 -/
theorem test_sneImm_not : runs (regs [(0xA, 0x42)]) 0x4A42 [.pc] = some [0x202] := by decide
/-- Ignored bits, 5127 -/
theorem test_seReg : runs (regs [(0x1, 0x07), (0x2, 0x07)]) 0x5127 [.pc] = some [0x204] := by decide
/-- K6 -/
theorem test_seReg_not : runs (regs [(0x1, 0x07), (0x2, 0x08)]) 0x5120 [.pc] = some [0x202] := by decide
/-- Ignored bits, 912F -/
theorem test_sneReg : runs (regs [(0x1, 0x07), (0x2, 0x08)]) 0x912F [.pc] = some [0x204] := by decide
/-- K8 -/
theorem test_sneReg_not : runs (regs [(0x1, 0x07), (0x2, 0x07)]) 0x9120 [.pc] = some [0x202] := by decide
/-- U6 -/
theorem test_undefined : runs (regs [(0x0, 0x01), (0x1, 0x02), (0xF, 0x03)]) 0x812F [.pc, .v 1, .v 0xF, .halt] = some [0x202, 2, 3, 0] := by decide
/-- A2 -/
theorem test_ldImm : runs State.reset 0x6F12 [.v 0xF, .pc] = some [0x12, 0x202] := by decide
/-- A3 -/
theorem test_addImm : runs (regs [(0xA, 0xFF), (0xF, 0x09)]) 0x7A01 [.v 0xA, .v 0xF] = some [0, 9] := by decide
/-- A6 -/
theorem test_ldReg : runs (regs [(0x1, 0x11), (0x2, 0x22), (0xF, 0x09)]) 0x8120 [.v 1, .v 2, .v 0xF] = some [0x22, 0x22, 9] := by decide
/-- A7 -/
theorem test_orReg : runs (regs [(0x1, 0xF0), (0x2, 0x0F), (0xF, 0x09)]) 0x8121 [.v 1, .v 0xF] = some [0xFF, 9] := by decide
/-- A8 -/
theorem test_andReg : runs (regs [(0x1, 0xF0), (0x2, 0x3C), (0xF, 0x09)]) 0x8122 [.v 1, .v 0xF] = some [0x30, 9] := by decide
/-- A9 -/
theorem test_xorReg : runs (regs [(0x1, 0xF0), (0x2, 0x3C), (0xF, 0x09)]) 0x8123 [.v 1, .v 0xF] = some [0xCC, 9] := by decide
/-- A13 -/
theorem test_addReg : runs (regs [(0x1, 0xC8), (0x2, 0x64)]) 0x8124 [.v 1, .v 0xF] = some [0x2C, 1] := by decide
/-- A15 -/
theorem test_addReg_flag_stays : runs (regs [(0xF, 0xF0), (0x1, 0x20)]) 0x8F14 [.v 0xF, .v 1] = some [1, 0x20] := by decide
/-- A20 -/
theorem test_subReg : runs (regs [(0x1, 0x03), (0x2, 0x0A)]) 0x8125 [.v 1, .v 0xF] = some [0xF9, 0] := by decide
/-- A24 -/
theorem test_subReg_result_stays : runs (regs [(0xF, 0x04), (0x1, 0x09)]) 0x8F15 [.v 0xF] = some [0xFB] := by decide
/-- A28 -/
theorem test_shr : runs (regs [(0x2, 0x05), (0x1, 0xAA)]) 0x8126 [.v 1, .v 0xF, .v 2] = some [2, 1, 5] := by decide
/-- A32 -/
theorem test_shr_source_vf : runs (regs [(0xF, 0x03)]) 0x81F6 [.v 1, .v 0xF] = some [1, 1] := by decide
/-- A34 -/
theorem test_subnReg : runs (regs [(0x1, 0x03), (0x2, 0x0A)]) 0x8127 [.v 1, .v 0xF] = some [7, 1] := by decide
/-- A38 -/
theorem test_subnReg_source_vf : runs (regs [(0xF, 0x09), (0x1, 0x05)]) 0x81F7 [.v 1, .v 0xF] = some [4, 1] := by decide
/-- A40 -/
theorem test_shl : runs (regs [(0x2, 0x81)]) 0x812E [.v 1, .v 0xF] = some [2, 1] := by decide
/-- A43 -/
theorem test_shl_result_stays : runs (regs [(0x1, 0xC0)]) 0x8F1E [.v 0xF] = some [0x80] := by decide
/-- M2 -/
theorem test_ldI : runs { State.reset with i := 0x5555 } 0xA000 [.i, .pc] = some [0, 0x202] := by decide
/-- J11 -/
theorem test_jpV0 : runs (regs [(0x0, 0xFF)]) 0xBFFF [.pc] = some [0x10FE] := by decide
/-- A46, the byte A7 brought by the Step -/
theorem test_rnd : runs (raising State.reset (.step 0xA7)) 0xC30F [.v 3, .pc] = some [0x07, 0x202] := by decide
/-- A48 -/
theorem test_rnd_mask_zero : runs (raising (regs [(3, 0x55)]) (.step 0xA7)) 0xC300 [.v 3] = some [0] := by decide
/-- T3 -/
theorem test_drw_clips : runs { poke (regs [(0, 0x3F)]) 0x300 [0xFF, 0x80, 0x7F] with i := 0x300 } 0xD013 [.pixel 63 0, .pixel 63 1, .pixel 63 2, .pixel 0 0, .pixel 0 1, .v 0xF] = some [1, 1, 0, 0, 0, 0] := by decide
/-- T9 -/
theorem test_drw_collides : runs { poke State.reset 0x300 [0x3C] with i := 0x300, fb := FrameBuffer.setRow FrameBuffer.clear 0 0x0F00000000000000 } 0xD011 [.pixel 2 0, .pixel 3 0, .pixel 4 0, .pixel 5 0, .pixel 6 0, .pixel 7 0, .v 0xF] = some [1, 1, 0, 0, 1, 1, 1] := by decide
/-- Q3 -/
theorem test_skp : runs { regs [(4, 0x17)] with key := 0x0080 } 0xE49E [.pc] = some [0x204] := by decide
/-- Q4 -/
theorem test_sknp : runs { regs [(4, 0x07)] with key := 0x0080 } 0xE4A1 [.pc] = some [0x202] := by decide
/-- Q9 -/
theorem test_ldVxDt : runs { regs [(0xF, 9)] with dt := 0x10 } 0xFF07 [.v 0xF, .dt] = some [0x10, 0x10] := by decide
/-- P5, keys 9 and 7 down -/
theorem test_ldVxK_latches : runs { State.reset with key := 0x0280 } 0xF30A [.pc, .fsm, .wk, .wx, .v 3] = some [0x200, 1, 7, 3, 0] := by decide
/-- P5, the Step after key 7 goes up, key 9 still down. -/
theorem test_await_ends :
    steps { State.reset with fsm := .awaitRelease, wk := 7, wx := 3, key := 0x0200 } [.v 3, .pc, .fsm] = some [7, 0x202, 0] := by decide
/-- Q10 -/
theorem test_ldDtVx : runs (regs [(0x0, 0xFF)]) 0xF015 [.dt, .pc] = some [0xFF, 0x202] := by decide
/-- Q11 -/
theorem test_ldStVx : runs { State.reset with st := 5 } 0xF018 [.st, .pc] = some [0, 0x202] := by decide
/-- M5 -/
theorem test_addI : runs { regs [(1, 0x20), (0xF, 9)] with i := 0xFFF0 } 0xF11E [.i, .v 0xF] = some [0x0010, 9] := by decide
/-- M8 -/
theorem test_ldF : runs (regs [(0x2, 0xFF)]) 0xF229 [.i] = some [0x04FB] := by decide
/-- M9, EA -/
theorem test_ldB : runs { regs [(3, 0xEA)] with i := 0x300 } 0xF333 [.mem 0x300, .mem 0x301, .mem 0x302, .i] = some [2, 3, 4, 0x300] := by decide
/-- M11 -/
theorem test_ldB_out_of_range : runs { regs [(3, 0x7B)] with i := 0xFFE } 0xF333 [.halt, .errAddr, .pc, .mem 0xFFE] = some [4, 0x1000, 0x200, 0] := by decide
/-- M12 -/
theorem test_stRegs : runs { poke (regs [(0, 0x10), (1, 0x11), (2, 0x12), (3, 0x13), (4, 0x14)]) 0x404 [0xEE] with i := 0x400 } 0xF355 [.mem 0x400, .mem 0x403, .mem 0x404, .i] = some [0x10, 0x13, 0xEE, 0x400] := by decide
/-- M17 -/
theorem test_stRegs_out_of_range : runs { State.reset with i := 0xFFFF } 0xF155 [.halt, .errAddr] = some [4, 0xFFFF] := by decide
/-- M18 -/
theorem test_ldRegs : runs (regs [(0x3, 0x77)]) 0xF265 [.v 0, .v 1, .v 2, .v 3, .i] = some [0xF0, 0x90, 0x90, 0x77, 0] := by decide
/-- M20 -/
theorem test_ldRegs_out_of_range : runs { regs [(0, 0x11), (1, 0x22)] with i := 0xFFF } 0xF165 [.halt, .errAddr, .v 0, .v 1] = some [4, 0x1000, 0x11, 0x22] := by decide

/-! ### Fetch and the other events -/

/-- E2: an odd pc. -/
theorem test_fetch_odd : steps { poke State.reset 0x200 [0x12, 0x60, 0x2A, 0x00] with pc := 0x201 } [.v 0, .pc] = some [0x2A, 0x203] := by decide
/-- E4. -/
theorem test_fetch_at_4095 : steps { State.reset with pc := 0xFFF } [.halt, .errAddr, .pc] = some [4, 0x1000, 0xFFF] := by decide
/-- E5. -/
theorem test_fetch_beyond : steps { State.reset with pc := 0x10FE } [.halt, .errAddr, .pc] = some [4, 0x10FE, 0x10FE] := by decide
/-- Q13. -/
theorem test_tick : steps (raising { State.reset with st := 3 } .tick) [.dt, .st] = some [0, 2] := by decide
/-- Q14. -/
theorem test_tick_halted : steps (raising { State.reset with halt := .memRange, dt := 5 } .tick) [.dt] = some [5] := by decide
/-- X4: SetKey in the halted state. -/
theorem test_setKey_halted :
    steps (raising { State.reset with halt := .stackOverflow } (.setKey 3 true)) [.key 3, .key 2, .halt] = some [1, 0, 2] := by decide
set_option maxRecDepth 8000 in
/-- S8, the image of P1 placed by Reset. -/
theorem test_reset_loads :
    steps (raising { State.reset with halt := .stackOverflow } (.reset Config.Params.standard [0x60, 0x0A, 0x61]))
      [.pc, .halt, .mem 0x200, .mem 0x201, .mem 0x202, .mem 0x203, .mem 0x04F] = some [0x200, 0, 0x60, 0x0A, 0x61, 0, 0x80] := by decide
set_option maxRecDepth 8000 in
/-- X2, with a short memory left after the origin: 2 bytes do not fit in 1. -/
theorem test_reset_rejects :
    steps (raising State.reset (.reset { Config.Params.standard with origin := 0xFFF, aboveFont := by decide } [0x60, 0x0A]))
      [.pc, .halt, .errAddr, .mem 0xFFF] = some [0xFFF, 1, 0, 0] := by decide
/-- `withFetchWord` reaches an instruction from a state that could not fetch one. -/
theorem test_withFetchWord_halted :
    runs (raising { State.reset with halt := .memRange, pc := 0xFFF, fsm := .awaitRelease } .tick) 0x6A42 [.v 0xA, .pc]
      = some [0x42, 0x202] := by decide

/-! ### Witnesses: states and operands that meet the hypotheses of the statements, each clause at a boundary of its range. The words
of the decode tests above meet those of every `RowDecodes`. -/

/-- A called state: one live entry, returning to 0x456. -/
def called : State := { State.reset with sp := 1, stack := State.reset.stack.set 0 0x456 }
/-- A core in the wait of FX0A, on the last word that can be fetched, key 7 awaited. -/
def waiting : State := { State.reset with fsm := .awaitRelease, wk := 7, wx := 3, pc := 4094 }
/-- A core stopped by STACK_OVERFLOW, with an event to come. -/
def stopped (e : Event) : State := raising { State.reset with halt := .stackOverflow } e
/-- The top left pixel on and a sprite byte that covers it, in the last byte of memory. -/
def lit : State :=
  { poke State.reset 4095 [0x80] with i := 4095, fb := FrameBuffer.setRow FrameBuffer.clear 0 0x8000000000000000 }

theorem witness_DecodingAnEncodedInstruction :
    (Instr.drw 0xF 0xF 0xF).wf = true ∧ (Instr.undefined 0x0000).wf = true := by decide
theorem witness_OpcodeMapSelectsOneRow :
    ⟨"FX65", 0xF0FF, 0xF065⟩ ∈ opcodeRows ∧ (0xFF65 : Word) &&& 0xF0FF = 0xF065 := by decide
theorem witness_CallPushesReturnAddress :
    { State.reset with sp := 11 }.sp.val < 12 ∧ { State.reset with sp := 12 }.sp.val = 12 := by decide
theorem witness_ReturnPopsStack :
    { State.reset with sp := 12 }.sp.val = (11 : Fin 12).val + 1 ∧ called.sp.val = (0 : Fin 12).val + 1 ∧
      State.reset.sp.val = 0 := by decide
theorem witness_CallThenReturnRoundTrip : ∃ t, exec (.call 0x300) State.reset = .next t ∧ State.reset.sp.val < 12 ∧
    t.advance.sp = t.sp ∧ t.advance.stack[State.reset.sp.val] = t.stack[State.reset.sp.val] := ⟨_, rfl, by decide, rfl, rfl⟩
theorem witness_SkipsComparingImmediate :
    (regs [(0xF, 0xFF)]).readV 0xF = 0xFF ∧ (regs [(0xF, 0xFF)]).readV 0xF ≠ 0 := by decide
theorem witness_SkipsComparingRegisters :
    (regs [(1, 7)]).readV 1 = (regs [(1, 7)]).readV 1 ∧ (regs [(1, 7)]).readV 1 ≠ (regs [(1, 7)]).readV 2 := by decide
theorem witness_UndefinedWordsDoNothing :
    (∀ r ∈ opcodeRows, (0x0000 : Word) &&& r.mask ≠ r.key) ∧ ∀ r ∈ opcodeRows, (0xFFFF : Word) &&& r.mask ≠ r.key := by decide
theorem witness_AddSetsCarry :
    255 < ((regs [(1, 0xFF), (2, 1)]).readV 1).toNat + ((regs [(1, 0xFF), (2, 1)]).readV 2).toNat ∧
    ¬ 255 < ((regs [(1, 0xFF)]).readV 1).toNat + ((regs [(1, 0xFF)]).readV 2).toNat ∧ (1 : Nibble) ≠ vf := by decide
theorem witness_SubtractSetsNoBorrow :
    ((regs [(1, 7), (2, 7)]).readV 2).toNat ≤ ((regs [(1, 7), (2, 7)]).readV 1).toNat ∧
    ¬ ((regs [(2, 1)]).readV 2).toNat ≤ ((regs [(2, 1)]).readV 1).toNat ∧ (1 : Nibble) ≠ vf := by decide
theorem witness_ShiftsMoveVyIntoVx :
    ((regs [(2, 1)]).readV 2).toNat % 2 = 1 ∧ ¬ ((regs [(2, 2)]).readV 2).toNat % 2 = 1 ∧
    128 ≤ ((regs [(2, 0x80)]).readV 2).toNat ∧ ¬ 128 ≤ ((regs [(2, 0x7F)]).readV 2).toNat ∧ (1 : Nibble) ≠ vf := by decide
theorem witness_RandomIsMaskedDraw : (0x0F : Byte).getLsbD 4 = false ∧ (0xFF : Byte).getLsbD 8 = false := by decide
theorem witness_BcdStoresDigits : { State.reset with i := 4093 }.i.toNat + 2 < 4096 ∧
    4096 ≤ { State.reset with i := 4094 }.i.toNat + 2 := by decide
theorem witness_StoreRegistersAtI : { State.reset with i := 4080 }.i.toNat + (15 : Nibble).toNat < 4096 ∧
    4096 ≤ { State.reset with i := 4081 }.i.toNat + (15 : Nibble).toNat ∧ (15 : Nibble).toNat ≤ (15 : Nibble).toNat := by decide
theorem witness_LoadRegistersFromI : { State.reset with i := 4095 }.i.toNat + (0 : Nibble).toNat < 4096 ∧
    4096 ≤ { State.reset with i := 4096 }.i.toNat + (0 : Nibble).toNat ∧ (0 : Nibble).toNat ≤ (0 : Nibble).toNat := by decide
theorem witness_LoadAfterStoreRestoresRegisters : ∃ t, exec (.stRegs 15) { State.reset with i := 4080 } = .next t ∧
    (4080 : Word).toNat + (15 : Nibble).toNat < 4096 ∧ (t.writeV 3 9).mem = t.mem ∧ (t.writeV 3 9).i = t.i :=
  ⟨_, rfl, by decide, rfl, rfl⟩
theorem witness_StoredWordIsExecutedNext : 1 ≤ (1 : Nibble).toNat ∧
    { State.reset with i := 0x202 }.i = { State.reset with i := 0x202 }.npc ∧ (0x202 : Word).toNat + (1 : Nibble).toNat < 4096 ∧
    State.reset.halt = .running ∧ State.reset.fsm = .ready ∧
    (raising { State.reset with i := 0x202 } (.step 0xA7)).nextEvent = .step 0xA7 := by decide
theorem witness_DrawFlipsPixelsUnderSprite_noRows :
    spriteRows { State.reset with i := 0xFFFF } 0 0 = 0 := by decide
theorem witness_DrawFlipsPixelsUnderSprite_collision : lit.i.toNat + spriteRows lit 0 1 ≤ 4096 ∧
    lit.fb.pixel 0 0 = true ∧ spriteBit lit 0 0 1 0 0 = true := by decide
theorem witness_DrawFlipsPixelsUnderSprite_noCollision : State.reset.i.toNat + spriteRows State.reset 0 15 ≤ 4096 ∧
    ∀ px py, State.reset.fb.pixel px py = true → spriteBit State.reset 0 0 15 px py = false :=
  ⟨by decide, fun px py h => absurd ((FrameBuffer.pixel_clear px py).symm.trans h) (by decide)⟩
theorem witness_DrawFlipsPixelsUnderSprite_outOfRange :
    0 < spriteRows lit 0 2 ∧ 4096 < lit.i.toNat + spriteRows lit 0 2 := by decide
theorem witness_DrawingTwiceRestoresPixels : lit.i.toNat + spriteRows lit 0 1 ≤ 4096 ∧
    ∃ t, exec (.drw 0 1 1) lit = .next t ∧ t.advance.fb = t.fb ∧ t.advance.mem = lit.mem ∧ t.advance.i = lit.i ∧
      t.advance.readV 0 = lit.readV 0 ∧ t.advance.readV 1 = lit.readV 1 :=
  ⟨by decide, lit.drawn 0 1 1, (execDrw_eq 0 1 1 lit).trans (lit.accessing_of_fits _ (Or.inr (by decide))), rfl, rfl, rfl, by decide, by decide⟩
theorem witness_SkipsOnKeyState :
    { regs [(4, 0xFF)] with key := 0x8000 }.key.getLsbD (({ regs [(4, 0xFF)] with key := 0x8000 }.readV 4).toNat % 16) = true ∧
    State.reset.key.getLsbD ((State.reset.readV 4).toNat % 16) = false := by decide
theorem witness_WaitForKeyLatchesLowestKey : (∀ k : Nibble, State.reset.keyDown k = false) ∧
    { State.reset with key := 0x8000 }.keyDown 15 = true ∧
    ∀ j : Nibble, j.toNat < 15 → { State.reset with key := 0x8000 }.keyDown j = false := by decide
theorem witness_AwaitingStepEndsAtRelease : (raising waiting (.step 0)).nextEvent = .step 0 ∧ waiting.halt = .running ∧ waiting.fsm = .awaitRelease ∧
    { waiting with key := 0x0080 }.keyDown waiting.wk = true ∧ waiting.keyDown waiting.wk = false := by decide
theorem witness_WaitForKeyDeliversKeyNumber : ∃ t, exec (.ldVxK 3) { State.reset with key := 1 } = .next t ∧
    { State.reset with key := 1 }.keyDown 0 = true ∧
    CoreOnlyChanges (fun p => p = .dt ∨ p = .st ∨ ∃ j, p = .key j) t (raising (t.writeKey 0 false) (.step 9)) ∧
    (raising (t.writeKey 0 false) (.step 9)).nextEvent = .step 9 ∧
    (raising (t.writeKey 0 false) (.step 9)).keyDown 0 = false :=
  ⟨_, rfl, by decide, fun p hp => (State.look_outside _ _ p).trans
    ((onlyChanges_writeKey (W := fun p => p = .dt ∨ p = .st ∨ ∃ j, p = .key j) _ 0 false (Or.inr (Or.inr ⟨_, rfl⟩))).1 p hp), by decide, by decide⟩
theorem witness_StepRunsDecodedInstruction : (raising { State.reset with pc := 4094 } (.step 0)).nextEvent = .step 0 ∧ State.reset.halt = .running ∧
    State.reset.fsm = .ready ∧ (4094 : Word).toNat ≤ 4094 ∧
    decode [State.reset.mem.read 4094, State.reset.mem.read 4095] = .ok (.undefined 0x0000, []) :=
  ⟨by decide, rfl, rfl, by decide, rfl⟩
theorem witness_FetchOutOfRangeStops : (raising { State.reset with pc := 4095 } (.step 0)).nextEvent = .step 0 ∧ State.reset.halt = .running ∧
    State.reset.fsm = .ready ∧ 4095 ≤ (4095 : Word).toNat := by decide
theorem witness_HaltedCoreStaysHalted : (stopped (.step 0)).halt ≠ .running ∧ (stopped (.step 0)).nextEvent = .step 0 ∧
    (stopped .tick).nextEvent = .tick ∧ (stopped .present).nextEvent = .present ∧
    (stopped (.setKey 15 true)).nextEvent = .setKey 15 true := by decide
theorem witness_HaltedCoreStaysHalted_reset : ∃ t, step (stopped (.reset Config.Params.standard [])) = .next t ∧
    t.halt ≠ (stopped (.reset Config.Params.standard [])).halt := ⟨_, rfl, by decide⟩
theorem witness_TickCountsTimersDown : (raising State.reset .tick).nextEvent = .tick ∧
    (raising State.reset .tick).halt = .running := by decide
theorem witness_TicksDecayTimersToZero : { State.reset with st := 5 }.halt = .running ∧ ¬ 5 < 5 ∧ 4 < 5 := by decide
theorem witness_SetKeyWritesOneBit : (stopped (.setKey 0 false)).nextEvent = .setKey 0 false := by decide
theorem witness_PresentChangesNothing : (stopped .present).nextEvent = .present ∧ (64 ≤ 64 ∨ 32 ≤ 0) := by decide
theorem witness_ResetLoadsImage :
    (stopped (.reset Config.Params.standard (List.replicate 3584 0x60))).nextEvent =
      .reset Config.Params.standard (List.replicate 3584 0x60) ∧
    (List.replicate 3584 (0x60 : Byte)).length ≤ 4096 - Config.Params.standard.origin.toNat ∧ 4095 < 4096 ∧
    (Config.Params.standard.origin.toNat ≤ 4095 ∧
      4095 - Config.Params.standard.origin.toNat < (List.replicate 3584 (0x60 : Byte)).length) :=
  ⟨rfl, by rw [List.length_replicate]; decide, by decide, by decide, by rw [List.length_replicate]; decide⟩
theorem witness_ResetRejectsLargeImage :
    (stopped (.reset Config.Params.standard (List.replicate 3585 0x60))).nextEvent =
      .reset Config.Params.standard (List.replicate 3585 0x60) ∧
    4096 - Config.Params.standard.origin.toNat < (List.replicate 3585 (0x60 : Byte)).length ∧
    ∃ u, step (stopped (.reset Config.Params.standard [])) = .next u :=
  ⟨rfl, by rw [List.length_replicate]; decide, _, rfl⟩
theorem witness_ResetForgetsEarlierState : (stopped (.reset Config.Params.standard [1])).nextEvent = .reset Config.Params.standard [1] ∧
    (raising waiting (.reset Config.Params.standard [1])).nextEvent = .reset Config.Params.standard [1] := ⟨rfl, rfl⟩
theorem witness_LoadedImageRunsFromItsFirstWord : (Instr.ldImm 0 0x0A).wf = true ∧
    (stopped (.reset Config.Params.standard (encodeBytes (.ldImm 0 0x0A) ++ [0x61]))).nextEvent =
      .reset Config.Params.standard (encodeBytes (.ldImm 0 0x0A) ++ [0x61]) ∧
    (encodeBytes (.ldImm 0 0x0A) ++ [0x61]).length ≤ 4096 - Config.Params.standard.origin.toNat := ⟨rfl, rfl, by decide⟩
theorem witness_FetchWordIsRunNext : 65535 < 65536 := by decide
theorem witness_InstructionsAreAllOrNothing : called.halt = .running := by decide
theorem witness_FatalConditionsExactlyWhen : called.halt = .running ∧ ∃ t, exec (.ret 0) called = .next t := ⟨rfl, _, rfl⟩
theorem witness_FatalConditionsExactlyWhen_memory : lit.halt = .running ∧
    ∃ t, exec (.ldRegs 1) lit = .next t ∧ t.halt = .memRange := ⟨rfl, _, rfl, rfl⟩
theorem witness_EachStoreHasItsWriters_address : ∃ t, exec (.ldI 1) State.reset = .next t ∧ t.i ≠ State.reset.i :=
  ⟨_, rfl, by decide⟩
theorem witness_EachStoreHasItsWriters_stack : ∃ t, exec (.call 1) State.reset = .next t ∧ t.stack ≠ State.reset.stack ∧
    t.sp ≠ State.reset.sp := ⟨_, rfl, by decide, by decide⟩
theorem witness_EachStoreHasItsWriters_timers : ∃ t u, exec (.ldDtVx 1) (regs [(1, 1)]) = .next t ∧ t.dt ≠ (regs [(1, 1)]).dt ∧
    exec (.ldStVx 1) (regs [(1, 1)]) = .next u ∧ u.st ≠ (regs [(1, 1)]).st := ⟨_, _, rfl, by decide, rfl, by decide⟩
theorem witness_EachStoreHasItsWriters_screen : ∃ t, exec (.cls 0) lit = .next t ∧ t.fb ≠ lit.fb := ⟨_, rfl, by decide⟩
theorem witness_EachStoreHasItsWriters_memory : ∃ t, exec (.stRegs 0) lit = .next t ∧ t.mem ≠ lit.mem := ⟨_, rfl, by decide⟩
theorem witness_EachStoreHasItsWriters_wait : ∃ t, exec (.ldVxK 1) { State.reset with key := 1 } = .next t ∧
    t.fsm ≠ State.reset.fsm := ⟨_, rfl, by decide⟩
theorem witness_VfWritersAreListed : ∃ t, exec (.subReg 1 2) State.reset = .next t ∧ t.readV vf ≠ State.reset.readV vf :=
  ⟨_, rfl, by decide⟩
theorem witness_OnlyControlTransfersLeaveSequence : State.reset.halt = .running ∧
    ∃ t, exec (.seReg 1 2 0) State.reset = .next t ∧ t.halt = .running ∧ t.pc ≠ State.reset.npc := ⟨rfl, _, rfl, rfl, by decide⟩
theorem witness_CanonicalMemoriesReadingAlikeAreEqual : Memory.wf [(0, 0x00), (4095, 0xAB)] = true ∧
    (Memory.write (Memory.write [] 4095 0xAB) 0 0).wf = true := by decide
theorem witness_EveryStepKeepsInvariant : waiting.Inv ∧ ∃ t, step waiting = .next t :=
  ⟨⟨rfl, by decide, fun k hk => absurd hk (by simp [waiting, State.reset]), fun _ => ⟨rfl, by decide⟩,
    fun h => absurd h (by decide), fun _ => rfl⟩, _, rfl⟩
theorem witness_StepBringsRandomByte : (raising (poke State.reset 4094 [0xC3, 0x0F]) (.step 0xA7)).nextEvent = .step 0xA7 ∧
    (4094 : Word).toNat ≤ 4094 ∧ decodeWord ((poke State.reset 4094 [0xC3, 0x0F]).mem.readWord 4094) = .rnd 3 0x0F := by decide
theorem witness_EventsAreFunctionsOfTheCore :
    (raising State.reset (.step 1)).toCoreState =
      { raising State.reset (.step 1) with outside := { pending := [.step 1, .tick], rnd := 7, supplied := 9 } }.toCoreState ∧
    (raising State.reset (.step 1)).nextEvent =
      { raising State.reset (.step 1) with outside := { pending := [.step 1, .tick], rnd := 7, supplied := 9 } }.nextEvent := ⟨rfl, rfl⟩
theorem witness_ResetKeepsGlyphTable :
    (stopped (.reset { Config.Params.standard with origin := 80, aboveFont := by decide } [1])).nextEvent =
      .reset { Config.Params.standard with origin := 80, aboveFont := by decide } [1] := rfl
theorem witness_EveryStepKeepsInvariant_halted : { State.reset with halt := .memRange, errAddr := 4096, pc := 0x10FE }.Inv :=
  ⟨rfl, by decide, fun k hk => absurd hk (by simp [State.reset]), fun h => absurd h (by decide), fun _ => by decide,
    fun h => absurd rfl h⟩

end Sys2Proof.Tests
end

section
/-! What a Reset leaves in memory, read byte by byte (R6, R57, R240, R241), and what follows for the glyph table. -/

namespace Sys2Proof.Machine

/-- A step whose event is a Reset does what R240 and R241 say, once the host's queue has moved on. -/
theorem step_of_reset {s : State} {p : Config.Params} {img : List Byte} (h : s.nextEvent = .reset p img) :
    step s = .next (s.takeEvent.resetEvent p img) := by
  rw [step_eq, h, State.applyEvent]

/-- The memory before the image is copied in holds the font, byte by byte, at the addresses below 80 (R57). -/
theorem fontMemory_read (font : Vector Byte Config.fontLen) (a : Fin 80) : (fontMemory font).read a.val = font[a] := by
  have ha : 0 ≤ a.val ∧ a.val - 0 < font.toList.length := by simp [Config.fontLen]
  rw [fontMemory, Memory.read_writeBytes, dif_pos ha]
  simp

/-- Below `PROGRAM_ORIGIN` a Reset leaves what stood there before the image, whether the image fits or not. -/
theorem State.resetEvent_read_below_origin (s : State) (p : Config.Params) (img : List Byte) {a : Nat}
    (ha : a < p.origin.toNat) : (s.resetEvent p img).mem.read a = (fontMemory p.font).read a := by
  unfold State.resetEvent
  dsimp only
  split
  case isTrue => rw [Memory.read_writeBytes, dif_neg (by omega), State.cleared]
  case isFalse => rw [State.fatal_mem, State.cleared]

/-- Settles O58: the origin is at least 80 (R6), so the image, copied in from the origin on, leaves the font alone. -/
theorem resetKeepsGlyphTable : Obligations.ResetKeepsGlyphTable := by
  intro s p img h
  refine ⟨p.aboveFont, p.origin.isLt, _, step_of_reset h, fun a => ?_⟩
  have ha : a.val < p.origin.toNat := Nat.lt_of_lt_of_le a.isLt p.aboveFont
  rw [State.resetEvent_read_below_origin _ _ _ ha, fontMemory_read]

end Sys2Proof.Machine
end

section
/-! What an instruction can do to the state, said once for all of them, and what follows for the stores it writes (R22, R36). -/

namespace Sys2Proof.Machine

/-- A word that leaves pc in the range of R25 when the instruction was fetched: what a jump, a skip or a return may put there. -/
def State.InReach (s : State) (a : Word) : Prop := s.pc.toNat ≤ 4094 → a.toNat ≤ 0x10FE

theorem State.inReach_of_le (s : State) {a : Word} (h : a.toNat ≤ 0x10FE) : s.InReach a := fun _ => h

theorem State.inReach_npc (s : State) : s.InReach s.npc := fun h => by rw [State.toNat_npc h]; omega

theorem State.inReach_zextAddr (s : State) (nnn : Addr12) : s.InReach (zextAddr nnn) :=
  s.inReach_of_le (by rw [toNat_zextAddr]; omega)

/-- BNNN: 0xFFF + 0xFF is the highest address of R25. -/
theorem State.inReach_jpV0 (s : State) (nnn : Addr12) (b : Byte) : s.InReach (zextAddr nnn + zextByte b) :=
  s.inReach_of_le (by rw [BitVec.toNat_add, toNat_zextAddr, toNat_zextByte]; omega)

theorem State.inReach_skip (s : State) (c : Bool) : s.InReach (if c then s.npc + 2 else s.npc) := by
  intro h
  cases c
  case false => exact s.inReach_npc h
  case true =>
    have := State.toNat_npc h
    simp [BitVec.toNat_add]; omega

/-- The causes an instruction can stop the core with, each with the address it records (R210, R211). -/
inductive StopCause : Halt → Nat → Prop
  | overflow : StopCause .stackOverflow 0
  | underflow : StopCause .stackUnderflow 0
  | range {a : Nat} : 4096 ≤ a → a ≤ 0xFFFF → StopCause .memRange a

theorem stopCause_max (a : Word) : StopCause .memRange (max a.toNat 4096) := .range (by omega) (by omega)

/-- The instructions that write one general register and no flag, and the register they name as their target (R130 to R135, R143,
R193). -/
def NamesTarget (i : Instr) (x : Nibble) : Prop :=
  (∃ nn, i = .ldImm x nn ∨ i = .addImm x nn ∨ i = .rnd x nn) ∨
  (∃ y, i = .ldReg x y ∨ i = .orReg x y ∨ i = .andReg x y ∨ i = .xorReg x y) ∨ i = .ldVxDt x

/-- The instructions of the ALU that write a result and VF (R136 to R140). -/
def WritesAluFlag (i : Instr) : Prop :=
  ∃ x y, i = .addReg x y ∨ i = .subReg x y ∨ i = .shr x y ∨ i = .subnReg x y ∨ i = .shl x y

/-- What an instruction can do to the state `s`: stop it, or write what its kind writes, within the bounds that were checked. The
instruction is left open where the effect alone is enough to know which stores it spares and that the invariant is kept, and so are
the values written to registers. -/
inductive Effect (s : State) : Instr → State → Prop
  | stop {i c a} (h : StopCause c a) : Effect s i (s.fatal c a)
  | jump {i a} (h : s.InReach a) : Effect s i (s.setPc a)
  | result {i x} (b : Byte) (h : NamesTarget i x) : Effect s i (s.writeV x b).advance
  | resultAndFlag {i} (x y : Nibble) (b b' : Byte) (h : WritesAluFlag i) : Effect s i ((s.writeV x b).writeV y b').advance
  | index {i} (a : Word) (h : (∃ nnn, i = .ldI nnn) ∨ (∃ x, i = .addI x) ∨ ∃ x, i = .ldF x) :
      Effect s i { s with i := a }.advance
  | delay (x : Nibble) : Effect s (.ldDtVx x) { s with dt := s.readV x }.advance
  | sound (x : Nibble) : Effect s (.ldStVx x) { s with st := s.readV x }.advance
  | clear (g : Nibble) : Effect s (.cls g) { s with fb := FrameBuffer.clear }.advance
  | draw (x y n : Nibble) : Effect s (.drw x y n) (s.drawn x y n)
  | store {i} {a : Nat} {bs : List Byte} (h : (∃ x, i = .ldB x) ∨ ∃ x, i = .stRegs x) (hr : a + bs.length ≤ 4096) :
      Effect s i { s with mem := s.mem.writeBytes a bs }.advance
  | load (x : Nibble) : Effect s (.ldRegs x) (s.loadLowRegs x).advance
  | push (nnn : Addr12) (h : s.sp.val < 12) : Effect s (.call nnn)
      ({ s with stack := s.stack.set s.sp.val s.npc, sp := ⟨s.sp.val + 1, by omega⟩ }.setPc (zextAddr nnn))
  | pop (g : Nibble) {d : Nat} (h : s.sp.val = d + 1) (hd : d < 12) : Effect s (.ret g)
      ({ s with sp := ⟨d, by omega⟩ }.setPc (s.stack[d]'hd))
  | latch (x k : Nibble) : Effect s (.ldVxK x) { s with fsm := .awaitRelease, wk := k, wx := x }
  | poll (x : Nibble) : Effect s (.ldVxK x) s

/-! ### Every instruction has one of these effects -/

theorem State.accessing_effect {i : Instr} {s t : State} {n : Nat}
    (ht : n = 0 ∨ s.effAddr 0 + n ≤ 4096 → Effect s i t) :
    ∃ u, s.accessing (s.effAddr 0) n t = .next u ∧ Effect s i u := by
  obtain ⟨hr, h⟩ | ⟨-, -, h⟩ := s.accessing_cases (s.effAddr 0) n t
  · exact ⟨t, h, ht hr⟩
  · exact ⟨_, h, .stop (stopCause_max s.i)⟩

theorem execCall_effect (nnn : Addr12) (s : State) : ∃ t, execCall nnn s = .next t ∧ Effect s (.call nnn) t := by
  by_cases h : s.sp.val < 12
  · exact ⟨_, execCall_pushes nnn h, .push nnn h⟩
  · exact ⟨_, execCall_overflows nnn (by omega), .stop .overflow⟩

theorem execRet_effect (g : Nibble) (s : State) : ∃ t, execRet g s = .next t ∧ Effect s (.ret g) t := by
  cases hd : s.sp.val with
  | zero => exact ⟨_, execRet_underflows g hd, .stop .underflow⟩
  | succ d =>
    have : d < 12 := by omega
    exact ⟨_, execRet_pops g hd this, .pop g hd this⟩

theorem execLdVxK_effect (x : Nibble) (s : State) : ∃ t, execLdVxK x s = .next t ∧ Effect s (.ldVxK x) t := by
  unfold execLdVxK
  cases s.lowestKey with
  | some k => exact ⟨_, rfl, .latch x k⟩
  | none => exact ⟨s, rfl, .poll x⟩

theorem skip_effect (i : Instr) (s : State) (c : Bool) : Effect s i (s.skipIf c) := by
  rw [State.skipIf_eq]
  exact .jump (s.inReach_skip c)

/-- The inversion lemma of `exec`: an instruction always completes, and with one of the effects listed. -/
theorem exec_effect (i : Instr) (s : State) : ∃ t, exec i s = .next t ∧ Effect s i t := by
  cases i with
  | cls g => exact ⟨_, rfl, .clear g⟩
  | ret g => exact execRet_effect g s
  | jp nnn => exact ⟨_, rfl, .jump (s.inReach_zextAddr nnn)⟩
  | call nnn => exact execCall_effect nnn s
  | jpV0 nnn => exact ⟨_, rfl, .jump (s.inReach_jpV0 nnn _)⟩
  | seImm | sneImm | seReg | sneReg | skp | sknp => exact ⟨_, rfl, skip_effect _ s _⟩
  | ldImm | addImm | rnd | ldReg | orReg | andReg | xorReg | ldVxDt =>
    exact ⟨_, rfl, .result _ (by simp [NamesTarget])⟩
  | addReg | subReg | shr | subnReg | shl => exact ⟨_, rfl, .resultAndFlag _ _ _ _ (by simp [WritesAluFlag])⟩
  | ldI | addI | ldF => exact ⟨_, rfl, .index _ (by simp)⟩
  | ldDtVx x => exact ⟨_, rfl, .delay x⟩
  | ldStVx x => exact ⟨_, rfl, .sound x⟩
  | drw x y n => exact State.accessing_effect fun _ => .draw x y n
  | ldB x => exact State.accessing_effect fun hr => .store (.inl ⟨x, rfl⟩) (by simpa [bcdDigits] using hr)
  | stRegs x =>
    exact State.accessing_effect fun hr => .store (.inr ⟨x, rfl⟩) (by simpa [State.length_lowRegs] using hr)
  | ldRegs x => exact State.accessing_effect fun _ => .load x
  | ldVxK x => exact execLdVxK_effect x s
  | undefined w => exact ⟨_, rfl, .jump s.inReach_npc⟩

theorem effect_of_exec {i : Instr} {s t : State} (h : exec i s = .next t) : Effect s i t := by
  obtain ⟨u, hu, he⟩ := exec_effect i s
  obtain rfl : u = t := by simpa [hu] using h
  exact he

/-! ### The stores and their writers -/

/-- Settles O50: effect by effect, the stores it leaves alone and the instructions it is an effect of. -/
theorem eachStoreHasItsWriters : Obligations.EachStoreHasItsWriters := by
  intro i s t h
  cases effect_of_exec h with
  | stop | jump | result | resultAndFlag | load | poll => simp
  | index _ hi | store hi _ => simp [hi]
  | delay | sound | clear | push | pop | latch => simp
  | draw => simp [State.drawn]

/-- FX65 loads VF only with X = 15 (R155). -/
theorem State.readV_vf_loadLowRegs (s : State) {x : Nibble} (h : x ≠ vf) : (s.loadLowRegs x).readV vf = s.readV vf := by
  rw [State.readV_loadLowRegs, if_neg (by bv_omega)]

/-- Settles O51: a register write that reaches VF comes from the flag writers or names register 15. -/
theorem vfWritersAreListed : Obligations.VfWritersAreListed := by
  intro i s t h hne
  cases effect_of_exec h with
  | stop | jump | index | delay | sound | clear | store | push | pop | latch | poll => exact (hne rfl).elim
  | resultAndFlag _ _ _ _ hi => exact .inl hi
  | draw x y n => exact .inr (.inl ⟨x, y, n, rfl⟩)
  | @result _ x b hi =>
    obtain rfl : vf = x := by
      by_contra hx
      exact hne (by rw [State.readV_advance, s.readV_writeV_of_ne b hx])
    obtain hi | hi | hi := hi
    · exact .inr (.inr (.inl hi))
    · exact .inr (.inr (.inr (.inl hi)))
    · exact .inr (.inr (.inr (.inr (.inl hi))))
  | load x =>
    obtain rfl : x = vf := by
      by_contra hx
      exact hne (by rw [State.readV_advance, s.readV_vf_loadLowRegs hx])
    simp

end Sys2Proof.Machine
end

section
/-! The invariant: it holds at reset, and every step keeps it, whatever event comes next (R24, R25, R106, R110, R210). -/

namespace Sys2Proof.Machine

/-! ### Updates that keep the invariant -/

/-- The invariant does not speak of the registers, the timers, the screen, the keys and what stands outside the core. -/
theorem State.Inv.otherStores {s : State} (hs : s.Inv) {v : Vector Byte 16} {i : Word} {dt st : Byte} {fb : FrameBuffer}
    {key : BitVec 16} {o : Outside} :
    State.Inv { s with v := v, i := i, dt := dt, st := st, fb := fb, key := key, outside := o } :=
  ⟨hs.memory, hs.pcRange, hs.liveSlots, hs.waiting, hs.rangeFault, hs.noAddress⟩

theorem State.Inv.withMemory {s : State} (hs : s.Inv) {m : Memory} (hm : m.wf = true) : State.Inv { s with mem := m } :=
  ⟨hm, hs.pcRange, hs.liveSlots, hs.waiting, hs.rangeFault, hs.noAddress⟩

/-- A return address that is an npc may be pushed (R112). -/
theorem State.Inv.push {s : State} (hs : s.Inv) (h : s.sp.val < 12) {a : Word} (ha : a.toNat ≤ 4096) :
    State.Inv { s with stack := s.stack.set s.sp.val a, sp := ⟨s.sp.val + 1, by omega⟩ } := by
  refine ⟨hs.memory, hs.pcRange, fun k hk => ?_, hs.waiting, hs.rangeFault, hs.noAddress⟩
  by_cases hks : s.sp.val = k.val
  · simpa [hks] using ha
  · have hlive : k.val < s.sp.val := by simp only at hk; omega
    simpa [hks] using hs.liveSlots k hlive

/-- Entries may be dropped (R110). -/
theorem State.Inv.dropTo {s : State} (hs : s.Inv) {d : Nat} (hd : d ≤ s.sp.val) : State.Inv { s with sp := ⟨d, by omega⟩ } :=
  ⟨hs.memory, hs.pcRange, fun k hk => hs.liveSlots k (Nat.lt_of_lt_of_le hk hd), hs.waiting, hs.rangeFault, hs.noAddress⟩

/-- A READY core may have its pc anywhere in the range of R25. -/
theorem State.Inv.setPc {s : State} (hs : s.Inv) (hf : s.fsm = .ready) {a : Word} (ha : a.toNat ≤ 0x10FE) :
    (s.setPc a).Inv where
  memory := hs.memory
  pcRange := ha
  liveSlots := hs.liveSlots
  waiting h := by simp [hf] at h
  rangeFault := hs.rangeFault
  noAddress := hs.noAddress

theorem State.Inv.advance {s : State} (hs : s.Inv) (hf : s.fsm = .ready) (hpc : s.pc.toNat ≤ 4094) : s.advance.Inv :=
  hs.setPc hf (s.inReach_npc hpc)

/-- A READY core may stop, with an address in `err_addr` under MEM_RANGE and none under another cause (R210). -/
theorem State.Inv.fatal {s : State} {c : Halt} {a : Nat} (hs : s.Inv) (hf : s.fsm = .ready)
    (hr : c = .memRange → 4096 ≤ a ∧ a ≤ 0xFFFF) (h0 : c ≠ .memRange → a = 0) : (s.fatal c a).Inv where
  memory := hs.memory
  pcRange := hs.pcRange
  liveSlots := hs.liveSlots
  waiting h := by simp [hf] at h
  rangeFault h := by
    have := hr h
    rw [State.fatal_errAddr, BitVec.toNat_ofNat]
    omega
  noAddress h := by rw [State.fatal_errAddr, h0 h]; rfl

theorem State.Inv.stop {s : State} {c : Halt} {a : Nat} (hs : s.Inv) (hf : s.fsm = .ready) (hc : StopCause c a) :
    (s.fatal c a).Inv := by
  cases hc with
  | range h₁ h₂ => exact hs.fatal hf (fun _ => ⟨h₁, h₂⟩) (by simp)
  | overflow | underflow => exact hs.fatal hf (by simp) (by simp)

/-! ### Step -/

/-- An instruction that was fetched keeps the invariant, effect by effect. -/
theorem Effect.inv {i : Instr} {s t : State} (he : Effect s i t) (hs : s.Inv) (hr : s.halt = .running)
    (hf : s.fsm = .ready) (hpc : s.pc.toNat ≤ 4094) : t.Inv := by
  cases he with
  | stop hc => exact hs.stop hf hc
  | jump ha => exact hs.setPc hf (ha hpc)
  | result | resultAndFlag | index | delay | sound | clear | draw | load => exact hs.otherStores.advance hf hpc
  | store _ hb => exact (hs.withMemory (Memory.wf_writeBytes hs.memory hb)).advance hf hpc
  | push nnn hsp =>
    have hn : s.npc.toNat ≤ 4096 := by rw [State.toNat_npc hpc]; omega
    exact (hs.push hsp hn).setPc hf (s.inReach_zextAddr nnn hpc)
  | @pop g d hsp hd =>
    have hslot : (s.stack[d]'hd).toNat ≤ 4096 := hs.liveSlots ⟨d, hd⟩ (show d < s.sp.val by omega)
    exact (hs.dropTo (show d ≤ s.sp.val by omega)).setPc hf (Nat.le_trans hslot (by decide))
  | latch x k => exact { hs with waiting := fun _ => ⟨hr, hpc⟩ }
  | poll => exact hs

/-- StepExecute keeps the invariant, the fetch in range or not (R92, R53). -/
theorem State.Inv.stepExecute {s t : State} (hs : s.Inv) (hr : s.halt = .running) (hf : s.fsm = .ready)
    (h : s.stepExecute = .next t) : t.Inv := by
  by_cases hpc : s.pc.toNat ≤ 4094
  · rw [State.stepExecute_fetched hpc] at h
    exact (effect_of_exec h).inv hs hr hf hpc
  · rw [State.stepExecute_fetchFatal (by omega)] at h
    cases h
    exact hs.stop hf (stopCause_max s.pc)

/-- StepAwait keeps the invariant: the FX0A it leaves is one that was fetched, so its npc is in range (R97). -/
theorem State.Inv.stepAwait {s : State} (hs : s.Inv) (hw : s.fsm = .awaitRelease) : s.stepAwait.Inv := by
  cases hk : s.keyDown s.wk with
  | true => rw [State.stepAwait_down hk]; exact hs
  | false =>
    have hready : State.Inv { s with fsm := .ready } := { hs with waiting := fun h => by simp at h }
    rw [State.stepAwait_up hk]
    exact hready.otherStores.advance rfl (hs.waiting hw).2

/-- Step keeps the invariant (R91). -/
theorem State.Inv.stepEvent {s t : State} (hs : s.Inv) (h : s.stepEvent = .next t) : t.Inv := by
  by_cases hr : s.halt = .running
  · cases hf : s.fsm with
    | ready => exact hs.stepExecute hr hf (by rwa [State.stepEvent_ready hr hf] at h)
    | awaitRelease =>
      rw [State.stepEvent_awaiting hr hf] at h
      cases h
      exact hs.stepAwait hf
  · rw [State.stepEvent_halted hr] at h
    cases h
    exact hs

/-! ### The other events -/

theorem State.Inv.tick {s : State} (hs : s.Inv) : s.tick.Inv := by
  unfold State.tick
  split
  case isTrue => exact hs.otherStores
  case isFalse => exact hs

/-- The invariant of a core that runs, is READY and has an empty stack. -/
theorem State.Inv.of_emptyStack {s : State} (hr : s.halt = .running) (he : s.errAddr = 0) (hf : s.fsm = .ready)
    (hsp : s.sp = 0) (hm : s.mem.wf = true) (hpc : s.pc.toNat ≤ 0x10FE) : s.Inv where
  memory := hm
  pcRange := hpc
  liveSlots k hk := by simp [hsp] at hk
  waiting h := by simp [hf] at h
  rangeFault h := by simp [hr] at h
  noAddress _ := he

/-- A Reset makes the invariant hold, whatever the state before, the parameters and the image (R240, R241). -/
theorem State.inv_resetEvent (s : State) (p : Config.Params) (img : List Byte) : (s.resetEvent p img).Inv := by
  have hpc : (p.origin.setWidth 16).toNat ≤ 0x10FE := by
    rw [BitVec.toNat_setWidth_of_le (by decide)]; omega
  have hc : (s.cleared p).Inv := .of_emptyStack rfl rfl rfl rfl (fontMemory_wf p.font) hpc
  have hm := s.wf_resetEvent p img
  unfold State.resetEvent at hm ⊢
  dsimp only at hm ⊢
  split
  case isTrue h => exact hc.withMemory (by rwa [if_pos h] at hm)
  case isFalse => exact hc.fatal rfl (by simp) (by simp)

/-- Every event keeps the invariant. -/
theorem State.Inv.applyEvent {s t : State} {e : Event} (hs : s.Inv) (h : s.applyEvent e = .next t) : t.Inv := by
  cases e with
  | reset p img => cases h; exact s.inv_resetEvent p img
  | step b => exact hs.stepEvent h
  | tick => cases h; exact hs.tick
  | setKey k p => cases h; exact hs.otherStores
  | present => cases h; exact hs

/-- Settles O55, event by event. -/
theorem everyStepKeepsInvariant : Obligations.EveryStepKeepsInvariant :=
  fun _ _ hs h => hs.otherStores.applyEvent h

/-- Settles O54: the start state runs, is READY and has an empty stack. -/
theorem invariantAtReset : Obligations.InvariantAtReset :=
  .of_emptyStack rfl rfl rfl rfl Memory.wf_reset (by decide)

/-- With the default parameters and the empty image a Reset leaves the start state (R35). -/
theorem State.resetEvent_standard_nil (s : State) :
    s.resetEvent Config.Params.standard [] = { State.reset with outside := s.outside } := by
  have : imageFits Config.Params.standard [] = true := by decide
  simp [State.resetEvent, this, State.cleared_standard, Memory.writeBytes]

/-- Above the font the start state's memory is zero (R35, R57). -/
theorem State.reset_read_above_font {a : Nat} (h : 80 ≤ a) : State.reset.mem.read a = 0 :=
  dif_neg (Nat.not_lt.2 h)

/-- Settles O44: the start state is what a default Reset leaves, and its fields are as R35 lists them. -/
theorem resetStateIsEmptyImageReset : Obligations.ResetStateIsEmptyImageReset := by
  refine ⟨?_, rfl, rfl, rfl, rfl, fun _ => State.reset_read_above_font, by decide⟩
  rw [step_of_reset (State.nextEvent_of_cons rfl), State.resetEvent_standard_nil]
  rfl

end Sys2Proof.Machine
end

section
/-! Tick: what one of them does to the timers, and what a run of them does (R27, R28, R98, R197). -/

namespace Sys2Proof.Machine

theorem toNat_countDown (t : Byte) : (countDown t).toNat = t.toNat - 1 := by
  unfold countDown
  split <;> bv_omega

theorem State.tick_of_running {s : State} (h : s.halt = .running) :
    s.tick = { s with dt := countDown s.dt, st := countDown s.st } := if_pos h

/-- A Tick writes the timers alone. -/
theorem onlyChanges_tick {s : State} (h : s.halt = .running) : OnlyChanges (fun p => p = .dt ∨ p = .st) s s.tick := by
  rw [State.tick_of_running h]
  exact (onlyChanges_dt s _ (.inl rfl)).trans (onlyChanges_st { s with dt := countDown s.dt } _ (.inr rfl))

/-- Settles O37: a Tick of a running core counts both timers down and writes nothing else. -/
theorem tickCountsTimersDown : Obligations.TickCountsTimersDown := by
  intro s he hr
  have hr' : s.takeEvent.halt = .running := hr
  refine ⟨s.takeEvent.tick, by rw [step_eq, he, State.applyEvent], ?_, ?_, onlyChanges_tick hr'⟩
  · rw [State.tick_of_running hr']; exact toNat_countDown s.dt
  · rw [State.tick_of_running hr']; exact toNat_countDown s.st

/-- The state before `n` Ticks that the host has pending, and nothing else. -/
def State.withTicks (s : State) (n : Nat) : State :=
  { s with outside := { s.outside with pending := List.replicate n .tick } }

/-- The first of the pending Ticks is counted and the others stay to come. -/
theorem step_withTicks_succ {s : State} (h : s.halt = .running) (n : Nat) :
    step (s.withTicks (n + 1)) = .next (s.tick.withTicks n) := by
  have he : (s.withTicks (n + 1)).nextEvent = .tick := State.nextEvent_of_cons rfl
  have hr : (s.withTicks (n + 1)).takeEvent.halt = .running := h
  rw [step_eq, he, State.applyEvent, State.tick_of_running hr, State.tick_of_running h]
  rfl

/-- Pending Ticks, one after the other: each takes both timers one down, so all of them take each down by their number. -/
theorem runSteps_withTicks (n : Nat) {s : State} (h : s.halt = .running) :
    ∃ t, runSteps n (s.withTicks n) = .next t ∧ t.dt.toNat = s.dt.toNat - n ∧ t.st.toNat = s.st.toNat - n := by
  induction n generalizing s with
  | zero => exact ⟨_, rfl, rfl, rfl⟩
  | succ n ih =>
    have hr : s.tick.halt = .running := by rw [State.tick_of_running h]; exact h
    obtain ⟨t, ht, hdt, hst⟩ := ih hr
    rw [State.tick_of_running h, toNat_countDown] at hdt hst
    refine ⟨t, ?_, by omega, by omega⟩
    rw [runSteps, step_withTicks_succ h]
    exact ht

/-- Settles O38, by induction on the number of Ticks; the output `sound_on` is read off ST. -/
theorem ticksDecayTimersToZero : Obligations.TicksDecayTimersToZero := by
  intro n s h
  obtain ⟨t, ht, hdt, hst⟩ := runSteps_withTicks n h
  refine ⟨t, ht, hdt, hst, ?_⟩
  rw [State.soundOn, decide_eq_true_eq]
  omega

end Sys2Proof.Machine
end

section
/-! The core and what stands outside it: the fields of R20 and the event fix what an event does to the core (R34, R90, R101). -/

namespace Sys2Proof.Machine

/-- Something else stands outside the same core. -/
def State.within (s : State) (o : Outside) : State := { s with outside := o }

theorem State.within_of_core {s s' : State} (h : s.toCoreState = s'.toCoreState) : s' = s.within s'.outside := by
  cases s; cases s'; cases h; rfl

/-- An operation on the core: it always completes, leaves alone what stands outside, and does the same to the core whatever stands
there, as long as the input byte `rnd` is the same. -/
def BlindToOutside (f : State → Result) : Prop :=
  ∀ (s : State) (o : Outside), o.rnd = s.outside.rnd →
    ∃ t, f s = .next t ∧ t.outside = s.outside ∧ f (s.within o) = .next (t.within o)

theorem blindToOutside_skipIf (c : State → Bool) (hc : ∀ s o, c (s.within o) = c s) :
    BlindToOutside fun s => .next (s.skipIf (c s)) := by
  intro s o _
  simp only [State.skipIf_eq, hc]
  exact ⟨_, rfl, rfl, rfl⟩

theorem blindToOutside_accessing {base n : State → Nat} {f : State → State} (hb : ∀ s o, base (s.within o) = base s)
    (hn : ∀ s o, n (s.within o) = n s) (hf : ∀ s o, f (s.within o) = (f s).within o) (ho : ∀ s, (f s).outside = s.outside) :
    BlindToOutside fun s => s.accessing (base s) (n s) (f s) := by
  intro s o _
  simp only [State.accessing, hb, hn, hf]
  cases firstOutOfRange (base s) (n s) with
  | some a => exact ⟨_, rfl, rfl, rfl⟩
  | none => exact ⟨_, rfl, ho s, rfl⟩

theorem blindToOutside_execRet (g : Nibble) : BlindToOutside (execRet g) := by
  intro s o _
  cases hd : s.sp.val with
  | zero => exact ⟨_, execRet_underflows g hd, rfl, execRet_underflows g (s := s.within o) hd⟩
  | succ d =>
    have : d < 12 := by omega
    exact ⟨_, execRet_pops g hd this, rfl, execRet_pops g (s := s.within o) hd this⟩

theorem blindToOutside_execCall (nnn : Addr12) : BlindToOutside (execCall nnn) := by
  intro s o _
  by_cases h : s.sp.val < 12
  · exact ⟨_, execCall_pushes nnn h, rfl, execCall_pushes nnn (s := s.within o) h⟩
  · have h : s.sp.val = 12 := by omega
    exact ⟨_, execCall_overflows nnn h, rfl, execCall_overflows nnn (s := s.within o) h⟩

theorem blindToOutside_execLdVxK (x : Nibble) : BlindToOutside (execLdVxK x) := by
  intro s o _
  have hk : (s.within o).lowestKey = s.lowestKey := rfl
  simp only [execLdVxK, hk]
  cases s.lowestKey with
  | some k => exact ⟨_, rfl, rfl, rfl⟩
  | none => exact ⟨_, rfl, rfl, rfl⟩

theorem blindToOutside_execRnd (x : Nibble) (nn : Byte) : BlindToOutside (execRnd x nn) := by
  intro s o h
  have h : (s.within o).outside.rnd = s.outside.rnd := h
  simp only [execRnd, h]
  exact ⟨_, rfl, rfl, rfl⟩

/-- Every instruction: `rnd` is all that one reads from outside, and none writes there. -/
theorem blindToOutside_exec (i : Instr) : BlindToOutside (exec i) := by
  cases i with
  | ret g => exact blindToOutside_execRet g
  | call nnn => exact blindToOutside_execCall nnn
  | ldVxK x => exact blindToOutside_execLdVxK x
  | rnd x nn => exact blindToOutside_execRnd x nn
  | seImm | sneImm | seReg | sneReg | skp | sknp => exact blindToOutside_skipIf _ fun _ _ => rfl
  | drw | ldB | stRegs => exact blindToOutside_accessing (fun _ _ => rfl) (fun _ _ => rfl) (fun _ _ => rfl) fun _ => rfl
  | ldRegs x =>
    exact blindToOutside_accessing (fun _ _ => rfl) (fun _ _ => rfl) (fun _ _ => rfl) fun s =>
      (State.advance_outside _).trans (s.loadLowRegs_outside x)
  | cls | jp | jpV0 | ldImm | addImm | ldReg | orReg | andReg | xorReg | addReg | subReg | shr | subnReg | shl | ldI | ldVxDt
  | ldDtVx | ldStVx | addI | ldF | undefined => exact fun _ _ _ => ⟨_, rfl, rfl, rfl⟩

theorem blindToOutside_stepExecute : BlindToOutside State.stepExecute := by
  intro s o h
  have hpc : (s.within o).pc = s.pc := rfl
  have hm : (s.within o).mem = s.mem := rfl
  by_cases hf : s.pc.toNat ≤ 4094
  · rw [State.stepExecute_fetched hf, State.stepExecute_fetched (s := s.within o) hf, hpc, hm]
    exact blindToOutside_exec _ s o h
  · have hf : 4095 ≤ s.pc.toNat := by omega
    exact ⟨_, State.stepExecute_fetchFatal hf, rfl, State.stepExecute_fetchFatal (s := s.within o) hf⟩

theorem State.stepAwait_within (s : State) (o : Outside) : (s.within o).stepAwait = s.stepAwait.within o := by
  cases hk : s.keyDown s.wk with
  | true => rw [State.stepAwait_down hk, State.stepAwait_down (s := s.within o) hk]
  | false => rw [State.stepAwait_up hk, State.stepAwait_up (s := s.within o) hk]; rfl

theorem State.stepAwait_outside (s : State) : s.stepAwait.outside = s.outside := by
  unfold State.stepAwait
  split <;> rfl

theorem blindToOutside_stepEvent : BlindToOutside State.stepEvent := by
  intro s o h
  by_cases hr : s.halt = .running
  · cases hf : s.fsm with
    | ready =>
      rw [State.stepEvent_ready hr hf, State.stepEvent_ready (s := s.within o) hr hf]
      exact blindToOutside_stepExecute s o h
    | awaitRelease =>
      rw [State.stepEvent_awaiting hr hf, State.stepEvent_awaiting (s := s.within o) hr hf, State.stepAwait_within]
      exact ⟨_, rfl, s.stepAwait_outside, rfl⟩
  · exact ⟨s, State.stepEvent_halted hr, rfl, State.stepEvent_halted (s := s.within o) hr⟩

theorem State.tick_within (s : State) (o : Outside) : (s.within o).tick = s.tick.within o := by
  unfold State.tick
  by_cases h : s.halt = .running
  · rw [if_pos h, if_pos (show (s.within o).halt = .running from h)]; rfl
  · rw [if_neg h, if_neg (show (s.within o).halt ≠ .running from h)]

theorem State.tick_outside (s : State) : s.tick.outside = s.outside := by
  unfold State.tick
  split <;> rfl

theorem State.resetEvent_within (s : State) (o : Outside) (p : Config.Params) (img : List Byte) :
    (s.within o).resetEvent p img = (s.resetEvent p img).within o := by
  unfold State.resetEvent
  dsimp only
  split <;> rfl

theorem State.resetEvent_outside (s : State) (p : Config.Params) (img : List Byte) :
    (s.resetEvent p img).outside = s.outside := by
  unfold State.resetEvent
  dsimp only
  split <;> rfl

/-- Every event, the Step with its byte on the input. -/
theorem State.applyEvent_within (s : State) (o : Outside) (e : Event) (h : ∀ b, e = .step b → o.rnd = s.outside.rnd) :
    ∃ t, s.applyEvent e = .next t ∧ t.outside = s.outside ∧ (s.within o).applyEvent e = .next (t.within o) := by
  cases e with
  | reset p img => exact ⟨_, rfl, s.resetEvent_outside p img, congrArg _ (s.resetEvent_within o p img)⟩
  | step b => exact blindToOutside_stepEvent s o (h b rfl)
  | tick => exact ⟨_, rfl, s.tick_outside, congrArg _ (s.tick_within o)⟩
  | setKey | present => exact ⟨_, rfl, rfl, rfl⟩

/-- Settles O57: the second state is the first with something else outside, and a Step brings both the same byte. -/
theorem eventsAreFunctionsOfTheCore : Obligations.EventsAreFunctionsOfTheCore := by
  intro s s' hc he
  have hs : s'.takeEvent = s.takeEvent.within s'.outside.raised :=
    State.within_of_core (s := s.takeEvent) (s' := s'.takeEvent) hc
  have hrnd (b : Byte) (h : s.nextEvent = .step b) : s'.outside.raised.rnd = s.takeEvent.outside.rnd := by
    rw [State.takeEvent_rnd h]
    exact State.takeEvent_rnd (he ▸ h)
  obtain ⟨t, ht, ho, ht'⟩ := s.takeEvent.applyEvent_within s'.outside.raised s.nextEvent hrnd
  refine ⟨t, t.within s'.outside.raised, ht, ?_, rfl, ho, rfl⟩
  rw [step_eq, ← he, hs, ht']

end Sys2Proof.Machine
end

section
/-! Memory: its canonical form, the fetch from it, a store over the next instruction, and the Reset that cannot load its image
(R50, R53, R54, R64, R66, R241). -/

namespace Sys2Proof.Machine

/-! ### The canonical form -/

/-- A canonical list tells itself apart, at its first address, from every canonical list that begins above that address. -/
theorem Memory.read_head_ne {lo a : Nat} {b : Byte} {m m' : Memory} (h : Memory.wfFrom lo ((a, b) :: m) = true)
    (h' : Memory.wfFrom (a + 1) m' = true) : Memory.read ((a, b) :: m) a ≠ Memory.read m' a := by
  obtain ⟨-, -, hb, -⟩ := (Memory.wfFrom_cons ..).1 h
  rw [Memory.read_cons, if_pos rfl, Memory.read_of_wfFrom h' (Nat.lt_succ_self a)]
  exact hb

/-- A canonical list is canonical from any address up to its first one. -/
theorem Memory.wfFrom_of_le_head {lo lo' a : Nat} {b : Byte} {m : Memory} (h : Memory.wfFrom lo ((a, b) :: m) = true)
    (ha : lo' ≤ a) : Memory.wfFrom lo' ((a, b) :: m) = true := by
  obtain ⟨-, h⟩ := (Memory.wfFrom_cons ..).1 h
  exact (Memory.wfFrom_cons ..).2 ⟨ha, h⟩

/-- Lists that read alike and begin with the same entry have tails that read alike: at the entry's own address neither tail lists
anything. -/
theorem Memory.read_tail_eq {a : Nat} {b : Byte} {m m' : Memory} (hm : Memory.wfFrom (a + 1) m = true)
    (hm' : Memory.wfFrom (a + 1) m' = true) (h : ∀ t, Memory.read ((a, b) :: m) t = Memory.read ((a, b) :: m') t) (t : Nat) :
    Memory.read m t = Memory.read m' t := by
  by_cases ht : a = t
  · subst ht
    rw [Memory.read_of_wfFrom hm (Nat.lt_succ_self a), Memory.read_of_wfFrom hm' (Nat.lt_succ_self a)]
  · simpa [Memory.read_cons, ht] using h t

/-- Canonical lists that read alike are equal, from whatever address on each is canonical. -/
theorem Memory.eq_of_read_eq {m m' : Memory} {lo lo' : Nat} (hm : Memory.wfFrom lo m = true) (hm' : Memory.wfFrom lo' m' = true)
    (h : ∀ t, Memory.read m t = Memory.read m' t) : m = m' := by
  induction m generalizing lo lo' m' with
  | nil =>
    cases m' with
    | nil => rfl
    | cons c' m' => exact absurd (h c'.1).symm (Memory.read_head_ne hm' rfl)
  | cons c m ih =>
    obtain ⟨a, b⟩ := c
    cases m' with
    | nil => exact absurd (h a) (Memory.read_head_ne hm rfl)
    | cons c' m' =>
      obtain ⟨a', b'⟩ := c'
      obtain hlt | rfl | hgt := Nat.lt_trichotomy a a'
      · exact absurd (h a) (Memory.read_head_ne hm (Memory.wfFrom_of_le_head hm' hlt))
      · obtain rfl : b = b' := by simpa [Memory.read_cons] using h a
        obtain ⟨-, -, -, hm⟩ := (Memory.wfFrom_cons ..).1 hm
        obtain ⟨-, -, -, hm'⟩ := (Memory.wfFrom_cons ..).1 hm'
        rw [ih hm hm' (Memory.read_tail_eq hm hm' h)]
      · exact absurd (h a').symm (Memory.read_head_ne hm' (Memory.wfFrom_of_le_head hm hgt))

/-- Settles O53, by induction on the lists: their first entries are at the same address, or the lower one tells them apart. -/
theorem canonicalMemoriesReadingAlikeAreEqual : Obligations.CanonicalMemoriesReadingAlikeAreEqual :=
  fun _ _ => Memory.eq_of_read_eq

/-! ### The fetch -/

/-- A step whose event is a Step runs one instruction cycle when the core is running and READY (R91). -/
theorem step_of_step {s : State} {b : Byte} (he : s.nextEvent = .step b) (hr : s.halt = .running) (hf : s.fsm = .ready) :
    step s = s.takeEvent.stepExecute := by
  rw [step_eq, he, State.applyEvent, State.stepEvent_ready (s := s.takeEvent) hr hf]

/-- Settles O35: one of the two bytes of the fetch is out of range. -/
theorem fetchOutOfRangeStops : Obligations.FetchOutOfRangeStops := by
  intro b s he hr hf hpc
  refine ⟨_, (step_of_step he hr hf).trans (State.stepExecute_fetchFatal hpc), stoppedBy_fatal _ _ ?_⟩
  have := s.takeEvent.pc.isLt
  omega

/-! ### The block store, and the fetch that sees it -/

/-- The state with V[0] to V[X] stored from I on, pc where it was (R154). -/
def State.storeLowRegs (s : State) (x : Nibble) : State :=
  { s with mem := s.mem.writeBytes (s.effAddr 0) (s.lowRegs x) }

/-- FX55, all of its addresses in range (R154). -/
theorem execStRegs_stores {x : Nibble} {s : State} (h : s.i.toNat + x.toNat < 4096) :
    exec (.stRegs x) s = .next (s.storeLowRegs x).advance :=
  s.accessing_of_fits _ (.inr (show s.i.toNat + 0 + (x.toNat + 1) ≤ 4096 by omega))

/-- Register V[k] lies at I + k after the store (R154). -/
theorem State.read_storeLowRegs (s : State) {x r : Nibble} (h : r.toNat ≤ x.toNat) :
    (s.storeLowRegs x).mem.read (s.i.toNat + r.toNat) = s.readV r := by
  have hr : s.effAddr 0 ≤ s.i.toNat + r.toNat ∧ s.i.toNat + r.toNat - s.effAddr 0 < (s.lowRegs x).length := by
    rw [State.length_lowRegs, State.effAddr]; omega
  have hk : s.i.toNat + r.toNat - s.effAddr 0 = r.toNat := by rw [State.effAddr]; omega
  rw [State.storeLowRegs, Memory.read_writeBytes, dif_pos hr, State.lowRegs_getElem, hk, BitVec.ofNat_toNat,
    BitVec.setWidth_eq]

/-- The word at I after the store is V[0], V[1], when both are stored (R53, R154). -/
theorem State.readWord_storeLowRegs (s : State) {x : Nibble} (h : 1 ≤ x.toNat) :
    (s.storeLowRegs x).mem.readWord s.i.toNat = wordOfBytes (s.readV 0) (s.readV 1) := by
  have h0 := s.read_storeLowRegs (x := x) (r := 0) (Nat.zero_le _)
  have h1 := s.read_storeLowRegs (x := x) (r := 1) h
  exact congrArg₂ wordOfBytes h0 h1

/-- Settles O25: pc moves on to I, and the fetch there reads what the store left. -/
theorem storedWordIsExecutedNext : Obligations.StoredWordIsExecutedNext := by
  intro x b s hx hi hfit hr hf he
  have hpc : (s.storeLowRegs x).advance.takeEvent.pc = s.i := hi.symm
  have hword : (s.storeLowRegs x).advance.takeEvent.mem.readWord s.i.toNat = wordOfBytes (s.readV 0) (s.readV 1) :=
    s.readWord_storeLowRegs hx
  refine ⟨_, execStRegs_stores hfit, ?_⟩
  rw [step_of_step (s := (s.storeLowRegs x).advance) he hr hf, State.stepExecute_fetched (by rw [hpc]; omega), hpc, hword]

/-! ### The image that does not fit -/

/-- A Reset with an image that does not fit is the Reset with the empty image, stopped (R241). -/
theorem State.resetEvent_of_tooLarge (s : State) {p : Config.Params} {img : List Byte} (h : 4096 - p.origin.toNat < img.length) :
    s.resetEvent p img = (s.resetEvent p []).fatal .imageTooLarge 0 := by
  have hbig : imageFits p img = false := by simpa [imageFits] using h
  have hnil : imageFits p [] = true := by simp [imageFits]
  simp [State.resetEvent, hbig, hnil, Memory.writeBytes]

/-- What stands outside after a Reset is raised does not depend on the Reset's arguments. -/
theorem Outside.raised_otherReset {o : Outside} {p q : Config.Params} {img img' : List Byte} (h : o.nextEvent = .reset p img) :
    Outside.raised { o with pending := .reset q img' :: o.pending.tail } = o.raised := by
  have hne : o.pending ≠ [] := by
    intro hnil
    simp [Outside.nextEvent, hnil, Outside.freeStep] at h
  have hother : Outside.nextEvent { o with pending := .reset q img' :: o.pending.tail } = .reset q img' := rfl
  simp [Outside.raised, h, hother, hne]

/-- Settles O42: the two Resets find the same state once they are raised, and the large image stops the second. -/
theorem resetRejectsLargeImage : Obligations.ResetRejectsLargeImage := by
  intro s u p img he hlarge hu
  have hout : Outside.raised { s.outside with pending := .reset p [] :: s.outside.pending.tail } = s.outside.raised :=
    Outside.raised_otherReset he
  obtain rfl : s.takeEvent.resetEvent p [] = u := by
    rw [step_of_reset (State.nextEvent_of_cons rfl), State.takeEvent, hout] at hu
    exact Host.Outcome.next.inj hu
  refine ⟨_, step_of_reset he, ?_⟩
  rw [State.resetEvent_of_tooLarge _ hlarge]
  exact stoppedBy_fatal _ _ (by decide)

end Sys2Proof.Machine
end

section
/-! The encoding: the decoder and the encoder undo each other, and the decoder follows the opcode map, undefined words included
(R71 to R77). -/

namespace Sys2Proof

/-! ### Decoding what was encoded -/

/-- Every constructor at every operand (R76). -/
theorem decodeWord_encode {i : Instr} (h : i.wf = true) : decodeWord (encode i) = i := by
  cases i with
  | cls g => exact Laws.RoundTrip.cls g h
  | ret g => exact Laws.RoundTrip.ret g h
  | jp nnn => exact Laws.RoundTrip.jp nnn h
  | call nnn => exact Laws.RoundTrip.call nnn h
  | seImm x nn => exact Laws.RoundTrip.seImm x nn h
  | sneImm x nn => exact Laws.RoundTrip.sneImm x nn h
  | seReg x y g => exact Laws.RoundTrip.seReg x y g h
  | ldImm x nn => exact Laws.RoundTrip.ldImm x nn h
  | addImm x nn => exact Laws.RoundTrip.addImm x nn h
  | ldReg x y => exact Laws.RoundTrip.ldReg x y h
  | orReg x y => exact Laws.RoundTrip.orReg x y h
  | andReg x y => exact Laws.RoundTrip.andReg x y h
  | xorReg x y => exact Laws.RoundTrip.xorReg x y h
  | addReg x y => exact Laws.RoundTrip.addReg x y h
  | subReg x y => exact Laws.RoundTrip.subReg x y h
  | shr x y => exact Laws.RoundTrip.shr x y h
  | subnReg x y => exact Laws.RoundTrip.subnReg x y h
  | shl x y => exact Laws.RoundTrip.shl x y h
  | sneReg x y g => exact Laws.RoundTrip.sneReg x y g h
  | ldI nnn => exact Laws.RoundTrip.ldI nnn h
  | jpV0 nnn => exact Laws.RoundTrip.jpV0 nnn h
  | rnd x nn => exact Laws.RoundTrip.rnd x nn h
  | drw x y n => exact Laws.RoundTrip.drw x y n h
  | skp x => exact Laws.RoundTrip.skp x h
  | sknp x => exact Laws.RoundTrip.sknp x h
  | ldVxDt x => exact Laws.RoundTrip.ldVxDt x h
  | ldVxK x => exact Laws.RoundTrip.ldVxK x h
  | ldDtVx x => exact Laws.RoundTrip.ldDtVx x h
  | ldStVx x => exact Laws.RoundTrip.ldStVx x h
  | addI x => exact Laws.RoundTrip.addI x h
  | ldF x => exact Laws.RoundTrip.ldF x h
  | ldB x => exact Laws.RoundTrip.ldB x h
  | stRegs x => exact Laws.RoundTrip.stRegs x h
  | ldRegs x => exact Laws.RoundTrip.ldRegs x h
  | undefined w => exact Laws.RoundTrip.undefined w h

/-- A fetch puts the two bytes of a word together again (R53, R54). -/
theorem wordOfBytes_highByte_lowByte (w : Word) : wordOfBytes (highByte w) (lowByte w) = w := by
  apply BitVec.eq_of_toNat_eq
  have := w.isLt
  simp only [toNat_wordOfBytes, highByte, lowByte, BitVec.extractLsb'_toNat, Nat.shiftRight_eq_div_pow]
  omega

theorem decode_encodeBytes_append (i : Instr) (rest : List Byte) :
    decode (encodeBytes i ++ rest) = .ok (decodeWord (encode i), rest) := by
  simp [decode, encodeBytes, wordOfBytes_highByte_lowByte]

/-- Settles O1: constructor by constructor for the word, and a fetch of the two bytes gives that word. -/
theorem decodingAnEncodedInstruction : Obligations.DecodingAnEncodedInstruction := by
  intro i rest h
  rw [decode_encodeBytes_append, decodeWord_encode h]
  exact ⟨rfl, rfl⟩

/-! ### Encoding what was decoded -/

/-- Format A (R72), with `op` known as the number that `decodeWord` dispatches on. -/
theorem packAddr_of_op {w : Word} {op : Nibble} (ho : (fieldOp w).toNat = op.toNat) : packAddr op (fieldNNN w) = w := by
  obtain rfl : fieldOp w = op := BitVec.eq_of_toNat_eq ho
  exact packAddr_fields w

/-- Format RI, with `op` known. -/
theorem packByte_of_op {w : Word} {op : Nibble} (ho : (fieldOp w).toNat = op.toNat) :
    packByte op (fieldX w) (fieldNN w) = w := by
  obtain rfl : fieldOp w = op := BitVec.eq_of_toNat_eq ho
  exact packByte_fields w

/-- Format RK, with `op` and the sub-key NN known. -/
theorem packByte_of_op_nn {w : Word} {op : Nibble} {nn : Byte} (ho : (fieldOp w).toNat = op.toNat)
    (hn : (fieldNN w).toNat = nn.toNat) : packByte op (fieldX w) nn = w := by
  obtain rfl : fieldNN w = nn := BitVec.eq_of_toNat_eq hn
  exact packByte_of_op ho

/-- Format RR and its relatives, with `op` known. -/
theorem packNibbles_of_op {w : Word} {op : Nibble} (ho : (fieldOp w).toNat = op.toNat) :
    packNibbles op (fieldX w) (fieldY w) (fieldN w) = w := by
  obtain rfl : fieldOp w = op := BitVec.eq_of_toNat_eq ho
  exact packNibbles_fields w

/-- Format RR, with `op` and the sub-key N known. -/
theorem packNibbles_of_op_n {w : Word} {op n : Nibble} (ho : (fieldOp w).toNat = op.toNat)
    (hn : (fieldN w).toNat = n.toNat) : packNibbles op (fieldX w) (fieldY w) n = w := by
  obtain rfl : fieldN w = n := BitVec.eq_of_toNat_eq hn
  exact packNibbles_of_op ho

theorem encode_decodeGroup0 {w : Word} (ho : (fieldOp w).toNat = 0x0) : encode (decodeGroup0 w) = w := by
  unfold decodeGroup0
  split
  case h_3 => rfl
  all_goals exact packByte_of_op_nn ho ‹_›

theorem encode_decodeGroup8 {w : Word} (ho : (fieldOp w).toNat = 0x8) : encode (decodeGroup8 w) = w := by
  unfold decodeGroup8
  split
  case h_10 => rfl
  all_goals exact packNibbles_of_op_n ho ‹_›

theorem encode_decodeGroupE {w : Word} (ho : (fieldOp w).toNat = 0xE) : encode (decodeGroupE w) = w := by
  unfold decodeGroupE
  split
  case h_3 => rfl
  all_goals exact packByte_of_op_nn ho ‹_›

theorem encode_decodeGroupF {w : Word} (ho : (fieldOp w).toNat = 0xF) : encode (decodeGroupF w) = w := by
  unfold decodeGroupF
  split
  case h_10 => rfl
  all_goals exact packByte_of_op_nn ho ‹_›

/-- By the decoder's dispatch: the four groups, then the instructions of formats A, RI and RR, which `op` alone selects. -/
theorem encode_decodeWord (w : Word) : encode (decodeWord w) = w := by
  unfold decodeWord
  split
  case h_1 ho => exact encode_decodeGroup0 ho
  case h_9 ho => exact encode_decodeGroup8 ho
  case h_15 ho => exact encode_decodeGroupE ho
  case h_16 =>
    have := (fieldOp w).isLt
    simp only [imp_false] at *
    exact encode_decodeGroupF (by omega)
  case h_2 ho | h_3 ho | h_11 ho | h_12 ho => exact packAddr_of_op ho
  case h_4 ho | h_5 ho | h_7 ho | h_8 ho | h_13 ho => exact packByte_of_op ho
  case h_6 ho | h_10 ho | h_14 ho => exact packNibbles_of_op ho

/-! ### The rows of the opcode map -/

/-- The decoder follows the map: a word that a row matches decodes to an instruction of that row (R76). -/
theorem mnemonic_decodeWord_of_row {w : Word} :
    ∀ r ∈ opcodeRows, w &&& r.mask = r.key → (decodeWord w).mnemonic = r.name := by
  have named {i : Instr} (h : decodeWord w = i) : (decodeWord w).mnemonic = i.mnemonic := congrArg _ h
  simp only [opcodeRows, List.forall_mem_append, List.forall_mem_cons]
  exact ⟨⟨fun h => named (decodeWord_cls h), fun h => named (decodeWord_ret h), fun h => named (decodeWord_jp h),
    fun h => named (decodeWord_call h), fun h => named (decodeWord_seImm h), fun h => named (decodeWord_sneImm h),
    fun h => named (decodeWord_seReg h), fun h => named (decodeWord_ldImm h), fun h => named (decodeWord_addImm h),
    fun h => named (decodeWord_ldReg h), fun h => named (decodeWord_orReg h), fun h => named (decodeWord_andReg h),
    fun h => named (decodeWord_xorReg h), fun h => named (decodeWord_addReg h), fun h => named (decodeWord_subReg h),
    fun h => named (decodeWord_shr h), fun h => named (decodeWord_subnReg h),
    List.forall_mem_nil _⟩,
    fun h => named (decodeWord_shl h), fun h => named (decodeWord_sneReg h), fun h => named (decodeWord_ldI h),
    fun h => named (decodeWord_jpV0 h), fun h => named (decodeWord_rnd h), fun h => named (decodeWord_drw h),
    fun h => named (decodeWord_skp h), fun h => named (decodeWord_sknp h), fun h => named (decodeWord_ldVxDt h),
    fun h => named (decodeWord_ldVxK h), fun h => named (decodeWord_ldDtVx h), fun h => named (decodeWord_ldStVx h),
    fun h => named (decodeWord_addI h), fun h => named (decodeWord_ldF h), fun h => named (decodeWord_ldB h),
    fun h => named (decodeWord_stRegs h), fun h => named (decodeWord_ldRegs h),
    List.forall_mem_nil _⟩

theorem nodup_opcodeRow_names : (opcodeRows.map OpRow.name).Nodup := by decide

theorem undefined_notMem_opcodeRow_names : "UNDEFINED" ∉ opcodeRows.map OpRow.name := by decide

/-- Settles O3: the decoder gives a word one mnemonic, and no two rows share theirs. -/
theorem opcodeMapSelectsOneRow : Obligations.OpcodeMapSelectsOneRow := by
  refine ⟨rfl, fun w r hr h => ⟨mnemonic_decodeWord_of_row r hr h, fun q hq hqw => ?_⟩⟩
  have hname : q.name = r.name := (mnemonic_decodeWord_of_row q hq hqw).symm.trans (mnemonic_decodeWord_of_row r hr h)
  exact List.inj_on_of_nodup_map nodup_opcodeRow_names hq hr hname

/-! ### Decoded instructions are well formed -/

theorem Instr.wf_of_mnemonic_ne {i : Instr} (h : i.mnemonic ≠ "UNDEFINED") : i.wf = true := by
  cases i with
  | undefined w => exact absurd rfl h
  | _ => rfl

theorem mnemonic_decodeWord_ne_of_defined {w : Word} (h : definedWord w = true) : (decodeWord w).mnemonic ≠ "UNDEFINED" := by
  obtain ⟨r, hr, hw⟩ := List.any_eq_true.1 h
  rw [mnemonic_decodeWord_of_row r hr (beq_iff_eq.1 hw)]
  exact fun hn => undefined_notMem_opcodeRow_names (hn ▸ List.mem_map_of_mem hr)

theorem wf_decodeWord (w : Word) : (decodeWord w).wf = true := by
  cases h : definedWord w with
  | true => exact Instr.wf_of_mnemonic_ne (mnemonic_decodeWord_ne_of_defined h)
  | false => rw [decodeWord_undefined h, Instr.wf, h]; rfl

/-- Settles O2: a defined word is no `undefined`, an undefined one keeps its word, and the fields give the word back. -/
theorem encodingADecodedWord : Obligations.EncodingADecodedWord :=
  fun w => ⟨wf_decodeWord w, encode_decodeWord w⟩

/-! ### The undefined words, group by group -/

theorem decodeGroup0_eq_undefined_iff (w : Word) :
    decodeGroup0 w = .undefined w ↔ fieldNN w ≠ 0xE0 ∧ fieldNN w ≠ 0xEE := by
  simp only [decodeGroup0, ne_eq, ← BitVec.toNat_inj]
  split
  case h_3 => exact iff_of_true rfl ⟨‹_›, ‹_›⟩
  all_goals next hn => simp [hn]

theorem decodeGroup8_eq_undefined_iff (w : Word) :
    decodeGroup8 w = .undefined w ↔ fieldN w ∈ [0x8, 0x9, 0xA, 0xB, 0xC, 0xD, 0xF] := by
  simp only [decodeGroup8, List.mem_cons, List.not_mem_nil, or_false, ← BitVec.toNat_inj, BitVec.reduceToNat]
  split
  case h_10 =>
    refine iff_of_true rfl ?_
    have := (fieldN w).isLt
    simp only [imp_false] at *
    omega
  all_goals next hn => simp [hn]

theorem decodeGroupE_eq_undefined_iff (w : Word) :
    decodeGroupE w = .undefined w ↔ fieldNN w ≠ 0x9E ∧ fieldNN w ≠ 0xA1 := by
  simp only [decodeGroupE, ne_eq, ← BitVec.toNat_inj]
  split
  case h_3 => exact iff_of_true rfl ⟨‹_›, ‹_›⟩
  all_goals next hn => simp [hn]

theorem decodeGroupF_eq_undefined_iff (w : Word) :
    decodeGroupF w = .undefined w ↔ fieldNN w ∉ [0x07, 0x0A, 0x15, 0x18, 0x1E, 0x29, 0x33, 0x55, 0x65] := by
  simp only [decodeGroupF, List.mem_cons, List.not_mem_nil, or_false, not_or, ← BitVec.toNat_inj]
  split
  case h_10 => exact iff_of_true rfl ⟨‹_›, ‹_›, ‹_›, ‹_›, ‹_›, ‹_›, ‹_›, ‹_›, ‹_›⟩
  all_goals next hn => simp [hn]

/-- Only the four groups with a sub-key have undefined words (R77). -/
theorem decodeWord_eq_undefined_iff (w : Word) :
    decodeWord w = .undefined w ↔
      (fieldOp w = 0x0 ∧ decodeGroup0 w = .undefined w) ∨ (fieldOp w = 0x8 ∧ decodeGroup8 w = .undefined w) ∨
      (fieldOp w = 0xE ∧ decodeGroupE w = .undefined w) ∨ (fieldOp w = 0xF ∧ decodeGroupF w = .undefined w) := by
  simp only [decodeWord, ← BitVec.toNat_inj]
  split
  case h_16 =>
    have ho : (fieldOp w).toNat = 0xF := by
      have := (fieldOp w).isLt
      simp only [imp_false] at *
      omega
    simp [ho]
  all_goals next ho => simp [ho]

/-- Settles O4: the four groups that have undefined words, each with its own sub-keys. -/
theorem undefinedWordsByGroup : Obligations.UndefinedWordsByGroup := by
  intro w
  rw [decodeWord_eq_undefined_iff, decodeGroup0_eq_undefined_iff, decodeGroup8_eq_undefined_iff, decodeGroupE_eq_undefined_iff,
    decodeGroupF_eq_undefined_iff]

/-- Settles O5, by evaluation of the decoder. -/
theorem sampleWordsDecode : Obligations.SampleWordsDecode := by
  unfold Obligations.SampleWordsDecode
  decide

end Sys2Proof
end

section
/-! The instruction cycle and the events around it: the fetch of the word at pc, the wait for a key, the undefined words, and what
each event answers (R53, R90 to R101). -/

namespace Sys2Proof.Machine

/-! ### The fetch -/

/-- A Step of a running, READY core whose pc is in range runs the word at pc (R92). -/
theorem step_fetched {s : State} {b : Byte} (he : s.nextEvent = .step b) (hr : s.halt = .running) (hf : s.fsm = .ready)
    (hpc : s.pc.toNat ≤ 4094) : step s = exec (decodeWord (s.mem.readWord s.pc.toNat)) s.takeEvent :=
  (step_of_step he hr hf).trans (State.stepExecute_fetched (s := s.takeEvent) hpc)

/-- Settles O34: the instruction `decode` reads from the two bytes at pc is that of the word fetched. -/
theorem stepRunsDecodedInstruction : Obligations.StepRunsDecodedInstruction := by
  intro b s i rest he hr hf hpc hd
  obtain ⟨hi, -⟩ : decodeWord (s.mem.readWord s.pc.toNat) = i ∧ rest = [] := by
    simpa [decode, Memory.readWord] using hd
  rw [step_fetched he hr hf hpc, hi]

/-- Settles O56: CXNN reads the byte that the Step put on the input (R90, R143). -/
theorem stepBringsRandomByte : Obligations.StepBringsRandomByte := by
  intro b x nn s he hr hf hpc hw
  have hstep : step s = .next (s.takeEvent.writeV x (b &&& nn)).advance := by
    rw [step_fetched he hr hf hpc, hw, ← State.takeEvent_rnd he]
    rfl
  refine ⟨_, hstep, ?_, rfl, ?_⟩
  · rw [State.readV_advance, State.readV_writeV_self]
  · exact (onlyChanges_writeV _ x _ (.inr rfl)).trans (onlyChanges_advance _ (.inl rfl))

/-! ### A word placed where it is fetched next -/

/-- An instruction can be fetched from `fetchAddr`, as its name says. -/
theorem State.fetchAddr_le (s : State) : s.fetchAddr.toNat ≤ 4094 := by
  unfold State.fetchAddr
  split
  case h_1 => decide
  case h_2 h =>
    rw [firstOutOfRange_eq_none] at h
    omega

/-- A word stored high byte first is fetched again (R53, R54). -/
theorem Memory.readWord_writeBytes (m : Memory) (a : Nat) (w : Word) :
    (m.writeBytes a [highByte w, lowByte w]).readWord a = w := by
  simp [Memory.readWord, Memory.read_writeBytes, wordOfBytes_highByte_lowByte]

theorem tableWord_sixteen (w : Nat) : tableWord 16 w = BitVec.ofNat 16 w := by
  apply BitVec.eq_of_toNat_eq
  simp [tableWord]

/-- Settles O46: the state is one that a Step fetches in, and the word fetched is the one placed. -/
theorem fetchWordIsRunNext : Obligations.FetchWordIsRunNext := by
  intro s w _
  obtain ⟨b, hb⟩ := s.nextEvent_withStepNext
  have hword : (s.withFetchWord 16 w).mem.readWord s.fetchAddr.toNat = BitVec.ofNat 16 w := by
    rw [← tableWord_sixteen]
    exact Memory.readWord_writeBytes _ _ _
  rw [← hword]
  exact step_fetched (s := s.withFetchWord 16 w) hb rfl rfl s.fetchAddr_le

/-! ### The wait for a key -/

/-- A Step while a release is awaited fetches nothing (R91, R97). -/
theorem step_awaiting {s : State} {b : Byte} (he : s.nextEvent = .step b) (hr : s.halt = .running)
    (hf : s.fsm = .awaitRelease) : step s = .next s.takeEvent.stepAwait := by
  rw [step_eq, he, State.applyEvent, State.stepEvent_awaiting (s := s.takeEvent) hr hf]

/-- StepAwait writes the register latched, pc and `fsm` at most (R97). -/
theorem onlyChanges_stepAwait (s : State) : OnlyChanges (fun p => p = .pc ∨ p = .fsm ∨ p = .v s.wx) s s.stepAwait := by
  cases hk : s.keyDown s.wk with
  | true => rw [State.stepAwait_down hk]; exact .refl _ s
  | false =>
    rw [State.stepAwait_up hk]
    exact ((onlyChanges_writeV s s.wx _ (.inr (.inr rfl))).trans (onlyChanges_fsm _ .ready (.inr (.inl rfl)))).trans
      (onlyChanges_advance _ (.inl rfl))

/-- Settles O31: the awaited key alone decides between the two outcomes of StepAwait. -/
theorem awaitingStepEndsAtRelease : Obligations.AwaitingStepEndsAtRelease := by
  intro b s he hr hf
  rw [step_awaiting he hr hf]
  constructor
  · intro hk
    rw [State.stepAwait_down (s := s.takeEvent) hk]
  · intro hk
    have hup := State.stepAwait_up (s := s.takeEvent) hk
    have hreg : s.takeEvent.stepAwait.readV s.wx = zextKey s.wk := by
      rw [hup]
      exact s.takeEvent.readV_writeV_self s.wx _
    refine ⟨_, rfl, ?_, ?_, ?_, onlyChanges_stepAwait s.takeEvent⟩
    · rw [hreg, toNat_zextKey]
    · rw [hup]; rfl
    · rw [hup]; rfl

/-- FX0A with a key down latches the lowest one and its own X, and waits (R192). -/
theorem exec_ldVxK_latches {x k : Nibble} {s : State} (h : s.lowestKey = some k) :
    exec (.ldVxK x) s = .next { s with fsm := .awaitRelease, wk := k, wx := x } := by
  rw [exec, execLdVxK, h]

theorem State.look_fsm_eq_one {s : State} : s.look .fsm = 1 ↔ s.fsm = .awaitRelease := by
  cases h : s.fsm <;> simp [State.look, h]

theorem State.look_halt_eq_zero {s : State} : s.look .halt = 0 ↔ s.halt = .running := by
  cases h : s.halt <;> simp [State.look, h, Halt.code]

/-- Settles O32: timers and keys apart, the later state is the one FX0A left, so the release ends its wait as O31 says. -/
theorem waitForKeyDeliversKeyNumber : Obligations.WaitForKeyDeliversKeyNumber := by
  intro x k s hr hk hlow
  refine ⟨_, exec_ldVxK_latches (State.lowestKey_eq_some.2 ⟨hk, hlow⟩), fun b u hu he hup => ?_⟩
  have hrun : u.halt = .running := by
    rw [← State.look_halt_eq_zero, hu .halt (by simp)]
    exact State.look_halt_eq_zero.2 hr
  have hwait : u.fsm = .awaitRelease := State.look_fsm_eq_one.1 (hu .fsm (by simp))
  have hwk : u.wk = k := BitVec.eq_of_toNat_eq (hu .wk (by simp))
  have hwx : u.wx = x := BitVec.eq_of_toNat_eq (hu .wx (by simp))
  have hpc : u.pc = s.pc := BitVec.eq_of_toNat_eq (hu .pc (by simp))
  obtain ⟨v, hv, hreg, hvpc, hready, -⟩ := (awaitingStepEndsAtRelease b u he hrun hwait).2 (by rwa [hwk])
  rw [hwx, hwk] at hreg
  rw [hpc] at hvpc
  exact ⟨v, hv, hreg, hvpc, hready⟩

/-! ### Undefined words -/

/-- A word is undefined when no row of R76 matches it (R77). -/
theorem definedWord_eq_false {w : Word} : definedWord w = false ↔ ∀ r ∈ opcodeRows, w &&& r.mask ≠ r.key := by
  simp only [definedWord, OpRow.matchesWord, List.any_eq_false, beq_iff_eq, ne_eq]

/-- Settles O13: the word decodes to `undefined`, whose meaning is to move pc on. -/
theorem undefinedWordsDoNothing : Obligations.UndefinedWordsDoNothing := by
  intro w s h
  have hdec : decodeWord w = .undefined w := decodeWord_undefined (definedWord_eq_false.2 h)
  exact ⟨s.advance, by rw [hdec]; rfl, hdec, rfl, onlyChanges_advance s rfl⟩

/-! ### Every event answers; SetKey and Present -/

/-- Settles O47: an event always completes, whatever the core and what stands outside it. -/
theorem everyStepAnswersNext : Obligations.EveryStepAnswersNext := by
  intro s
  obtain ⟨t, ht, -⟩ := s.takeEvent.applyEvent_within s.takeEvent.outside s.nextEvent fun _ _ => rfl
  exact ⟨t, ht⟩

/-- Settles O39: the event is the write of one key bit. -/
theorem setKeyWritesOneBit : Obligations.SetKeyWritesOneBit := by
  intro s k p he
  refine ⟨s.takeEvent.writeKey k p, by rw [step_eq, he, State.applyEvent], ?_, onlyChanges_writeKey _ k p rfl⟩
  rw [State.keyDown_writeKey, if_pos rfl]

/-- Settles O40: the snapshot is the frame buffer, which has no pixel off the screen. -/
theorem presentChangesNothing : Obligations.PresentChangesNothing := by
  intro s he
  exact ⟨by rw [step_eq, he, State.applyEvent], fun px py => ⟨rfl, s.fb.pixel_offScreen px py⟩⟩

end Sys2Proof.Machine
end

section
/-! Control transfer: the jumps, the call stack, the skips, and which instructions leave pc elsewhere than at npc (R110 to R119). -/

namespace Sys2Proof.Machine

/-! ### The call stack -/

/-- Settles O8: the two cases of a call, and the frame of its three writes one after the other. -/
theorem callPushesReturnAddress : Obligations.CallPushesReturnAddress := by
  refine ⟨fun w hw => decodeWord_call hw, fun nnn s h => ?_, fun nnn s h => ?_⟩
  · refine ⟨_, execCall_pushes nnn h, Vector.getElem_set_self h, rfl, toNat_zextAddr nnn, ?_⟩
    have hpush := onlyChanges_stack (W := fun p => p = .pc ∨ p = .sp ∨ p = .slot ⟨s.sp.val, h⟩) s h s.npc (.inr (.inr rfl))
    exact (hpush.trans (onlyChanges_sp _ _ (.inr (.inl rfl)))).trans (onlyChanges_setPc _ _ (.inl rfl))
  · exact ⟨_, execCall_overflows nnn h, stoppedBy_fatal _ _ (by decide)⟩

/-- Settles O9: the two cases of a return. -/
theorem returnPopsStack : Obligations.ReturnPopsStack := by
  refine ⟨fun w hw => decodeWord_ret hw, fun g s d h => ?_, fun g s h => ?_⟩
  · exact ⟨_, execRet_pops g h d.isLt, rfl, rfl,
      (onlyChanges_sp s _ (.inr rfl)).trans (onlyChanges_setPc _ _ (.inl rfl))⟩
  · exact ⟨_, execRet_underflows g h, stoppedBy_fatal _ _ (by decide)⟩

/-- Settles O10: the return pops the slot the call pushed, which holds the npc of the call. -/
theorem callThenReturnRoundTrip : Obligations.CallThenReturnRoundTrip := by
  intro nnn g s h
  obtain ⟨t, ht, hslot, hsp, -, -⟩ := callPushesReturnAddress.2.1 nnn s h
  refine ⟨t, ht, fun u hu huslot => ?_⟩
  obtain ⟨v, hv, hpc, hvsp, -⟩ := returnPopsStack.2.1 g u ⟨s.sp.val, h⟩ (by rw [hu, hsp])
  exact ⟨v, hv, hpc.trans (huslot.trans hslot), Fin.ext hvsp⟩

/-! ### The skips -/

/-- An instruction that is a `skipIf` skips when its Boolean says so (R118). -/
theorem skipsWhen_of_skipIf {i : Instr} {cond : State → Prop} {c : State → Bool}
    (hi : ∀ s, exec i s = .next (s.skipIf (c s))) (hc : ∀ s, c s = true ↔ cond s) : SkipsWhen i cond := by
  intro s
  refine ⟨_, hi s, fun h => ?_, fun h => ?_, onlyChanges_skipIf s _ rfl⟩
  · rw [State.skipIf_pc, if_pos ((hc s).2 h)]
  · rw [State.skipIf_pc, if_neg (mt (hc s).1 h)]

/-- Settles O11: both are a `skipIf` on a comparison of V[X] with NN. -/
theorem skipsComparingImmediate : Obligations.SkipsComparingImmediate :=
  ⟨fun _ hw => decodeWord_seImm hw, fun _ hw => decodeWord_sneImm hw, fun _ _ =>
    ⟨skipsWhen_of_skipIf (fun _ => rfl) (fun _ => beq_iff_eq), skipsWhen_of_skipIf (fun _ => rfl) (fun _ => bne_iff_ne)⟩⟩

/-- Settles O12: both are a `skipIf` on a comparison of V[X] with V[Y], which does not read the ignored nibble. -/
theorem skipsComparingRegisters : Obligations.SkipsComparingRegisters :=
  ⟨fun _ hw => decodeWord_seReg hw, fun _ hw => decodeWord_sneReg hw, fun _ _ _ =>
    ⟨skipsWhen_of_skipIf (fun _ => rfl) (fun _ => beq_iff_eq), skipsWhen_of_skipIf (fun _ => rfl) (fun _ => bne_iff_ne)⟩⟩

/-! ### The jumps -/

/-- Settles O6: the jump is one write of pc, with NNN widened. -/
theorem jumpSetsPc : Obligations.JumpSetsPc :=
  ⟨fun _ hw => decodeWord_jp hw, fun nnn s => ⟨_, rfl, toNat_zextAddr nnn, onlyChanges_setPc s _ rfl⟩⟩

/-- The target of BNNN does not wrap: at most 0xFFF + 0xFF (R113). -/
theorem toNat_zextAddr_add_zextByte (nnn : Addr12) (b : Byte) : (zextAddr nnn + zextByte b).toNat = nnn.toNat + b.toNat := by
  rw [BitVec.toNat_add, toNat_zextAddr, toNat_zextByte]
  omega

/-- Settles O7: the jump is one write of pc, with a sum that does not wrap. -/
theorem jumpWithOffsetAddsV0 : Obligations.JumpWithOffsetAddsV0 :=
  ⟨fun _ hw => decodeWord_jpV0 hw, fun nnn s =>
    ⟨_, rfl, toNat_zextAddr_add_zextByte nnn (s.readV 0), onlyChanges_setPc s _ rfl⟩⟩

/-! ### Where pc is left -/

/-- A memory access that leaves the core running has had its effect: it did not stop (R213). -/
theorem State.eq_of_accessing_running {s t u : State} {base n : Nat} (h : s.accessing base n u = .next t)
    (hr : t.halt = .running) : t = u := by
  obtain ⟨-, ha⟩ | ⟨-, -, ha⟩ := s.accessing_cases base n u
  · exact (Host.Outcome.next.inj (ha.symm.trans h)).symm
  · rw [ha] at h
    cases h
    cases hr

/-- FX0A leaves pc on itself, whether a key is down or not (R192). -/
theorem pc_of_exec_ldVxK {x : Nibble} {s t : State} (h : exec (.ldVxK x) s = .next t) : t.pc = s.pc := by
  rw [exec, execLdVxK] at h
  split at h <;> cases h <;> rfl

/-- A skip that does not end at npc is taken (R118). -/
theorem State.skipIf_pc_of_ne {s : State} {c : Bool} (h : (s.skipIf c).pc ≠ s.npc) : (s.skipIf c).pc = s.npc + 2 := by
  cases c with
  | true => rfl
  | false => exact absurd rfl h

/-- Settles O52, instruction by instruction: what neither transfers control nor skips nor waits ends in `advance`, an access to
memory because it did not stop the core. -/
theorem onlyControlTransfersLeaveSequence : Obligations.OnlyControlTransfersLeaveSequence := by
  intro i s t _ h hr hne
  cases i with
  | seImm | sneImm | seReg | sneReg | skp | sknp =>
    cases h
    exact .inl ⟨State.skipIf_pc_of_ne hne, by simp⟩
  | jp | call | jpV0 => exact .inr (.inl (by simp))
  | ret g => exact .inr (.inr (.inl ⟨g, rfl⟩))
  | ldVxK x => exact .inr (.inr (.inr ⟨pc_of_exec_ldVxK h, x, rfl⟩))
  | drw | ldB | stRegs | ldRegs =>
    have ht := State.eq_of_accessing_running h hr
    exact absurd (by rw [ht]; rfl) hne
  | _ =>
    cases h
    exact absurd rfl hne

end Sys2Proof.Machine
end

section
/-! Load, arithmetic, logic, shifts and random: what each writes to V[X] and to VF, and that it writes nothing else but pc
(R130 to R143). -/

namespace Sys2Proof.Machine

/-! ### Results as numbers -/

/-- Subtraction wraps mod 256 (R141). -/
theorem toNat_byte_sub (a b : Byte) : (a - b).toNat = (a.toNat + 256 - b.toNat) % 256 := by
  have := b.isLt
  rw [BitVec.toNat_sub]
  congr 1
  omega

/-- A right shift by one halves (R138). -/
theorem toNat_byte_shiftRight_one (a : Byte) : (a >>> 1).toNat = a.toNat / 2 := by
  rw [BitVec.toNat_ushiftRight, Nat.shiftRight_eq_div_pow, pow_one]

/-- A left shift by one doubles mod 256 (R140). -/
theorem toNat_byte_shiftLeft_one (a : Byte) : (a <<< 1).toNat = a.toNat * 2 % 256 := by
  rw [BitVec.toNat_shiftLeft, Nat.shiftLeft_eq, pow_one]

/-! ### Flags -/

theorem flagByte_eq_one_of {c : Bool} {p : Prop} (h : c = true ↔ p) (hp : p) : flagByte c = 1 := by
  rw [h.2 hp]; rfl

theorem flagByte_eq_zero_of {c : Bool} {p : Prop} (h : c = true ↔ p) (hp : ¬ p) : flagByte c = 0 := by
  rw [Bool.eq_false_iff.2 (mt h.1 hp)]; rfl

/-- The bit a right shift drops is the value's parity (R138). -/
theorem getLsbD_zero_iff (a : Byte) : a.getLsbD 0 = true ↔ a.toNat % 2 = 1 := by
  rw [BitVec.getLsbD, Nat.testBit_zero, decide_eq_true_iff]

/-- The bit a left shift drops says whether the value is 128 or more (R140). -/
theorem getLsbD_seven_iff (a : Byte) : a.getLsbD 7 = true ↔ 128 ≤ a.toNat := by
  rw [← BitVec.msb_eq_getLsbD_last a, BitVec.msb_eq_decide, decide_eq_true_iff]

/-! ### The two write orders -/

theorem State.readV_vf_writeResultThenFlag (s : State) (x : Nibble) (r f : Byte) :
    (s.writeResultThenFlag x r f).readV vf = f :=
  State.readV_writeV_self _ vf f

theorem State.readV_writeResultThenFlag (s : State) {x : Nibble} (r f : Byte) (hx : x ≠ vf) :
    (s.writeResultThenFlag x r f).readV x = r :=
  (State.readV_writeV_of_ne _ f hx).trans (State.readV_writeV_self s x r)

theorem State.readV_writeFlagThenResult (s : State) (x : Nibble) (r f : Byte) :
    (s.writeFlagThenResult x r f).readV x = r :=
  State.readV_writeV_self _ x r

theorem State.readV_vf_writeFlagThenResult (s : State) {x : Nibble} (r f : Byte) (hx : x ≠ vf) :
    (s.writeFlagThenResult x r f).readV vf = f :=
  (State.readV_writeV_of_ne _ r hx.symm).trans (State.readV_writeV_self s vf f)

theorem onlyChanges_writeResultThenFlag {W : Part → Prop} (s : State) (x : Nibble) (r f : Byte) (hx : W (.v x))
    (hf : W (.v vf)) : OnlyChanges W s (s.writeResultThenFlag x r f) :=
  (onlyChanges_writeV s x r hx).trans (onlyChanges_writeV _ vf f hf)

theorem onlyChanges_writeFlagThenResult {W : Part → Prop} (s : State) (x : Nibble) (r f : Byte) (hx : W (.v x))
    (hf : W (.v vf)) : OnlyChanges W s (s.writeFlagThenResult x r f) :=
  (onlyChanges_writeV s vf f hf).trans (onlyChanges_writeV _ x r hx)

/-! ### The three shapes of a register result -/

/-- A register write and the move to npc change that register and pc alone. -/
theorem onlyChanges_writeV_advance (s : State) (x : Nibble) (b : Byte) :
    OnlyChanges (fun p => p = .pc ∨ p = .v x) s (s.writeV x b).advance :=
  (onlyChanges_writeV s x b (.inr rfl)).trans (onlyChanges_advance _ (.inl rfl))

/-- An instruction that is one register write and the move to npc. -/
theorem writesRegister_of_writeV {i : Instr} {x : Nibble} {value : State → Nat} {r : State → Byte}
    (hi : ∀ s, exec i s = .next (s.writeV x (r s)).advance) (hr : ∀ s, (r s).toNat = value s) : WritesRegister i x value := by
  intro s
  refine ⟨_, hi s, ?_, rfl, onlyChanges_writeV_advance s x _⟩
  rw [State.readV_advance, State.readV_writeV_self, hr]

/-- An instruction that writes its result, then its flag (R95). -/
theorem writesResultThenFlag_of_writes {i : Instr} {x : Nibble} {result : State → Nat} {flag : State → Prop}
    {r : State → Byte} {c : State → Bool}
    (hi : ∀ s, exec i s = .next (s.writeResultThenFlag x (r s) (flagByte (c s))).advance)
    (hr : ∀ s, (r s).toNat = result s) (hc : ∀ s, c s = true ↔ flag s) : WritesResultThenFlag i x result flag := by
  intro s
  refine ⟨_, hi s, fun h => ?_, fun h => ?_, fun hx => ?_, rfl, ?_⟩
  · rw [State.readV_advance, State.readV_vf_writeResultThenFlag, flagByte_eq_one_of (hc s) h]
  · rw [State.readV_advance, State.readV_vf_writeResultThenFlag, flagByte_eq_zero_of (hc s) h]
  · rw [State.readV_advance, State.readV_writeResultThenFlag _ _ _ hx, hr]
  · exact (onlyChanges_writeResultThenFlag s x _ _ (.inr (.inl rfl)) (.inr (.inr rfl))).trans
      (onlyChanges_advance _ (.inl rfl))

/-- An instruction that writes its flag, then its result (R95). -/
theorem writesFlagThenResult_of_writes {i : Instr} {x : Nibble} {result : State → Nat} {flag : State → Prop}
    {r : State → Byte} {c : State → Bool}
    (hi : ∀ s, exec i s = .next (s.writeFlagThenResult x (r s) (flagByte (c s))).advance)
    (hr : ∀ s, (r s).toNat = result s) (hc : ∀ s, c s = true ↔ flag s) : WritesFlagThenResult i x result flag := by
  intro s
  refine ⟨_, hi s, ?_, fun hx => ?_, rfl, ?_⟩
  · rw [State.readV_advance, State.readV_writeFlagThenResult, hr]
  · rw [State.readV_advance, State.readV_vf_writeFlagThenResult _ _ _ hx]
    exact ⟨flagByte_eq_one_of (hc s), flagByte_eq_zero_of (hc s)⟩
  · exact (onlyChanges_writeFlagThenResult s x _ _ (.inr (.inl rfl)) (.inr (.inr rfl))).trans
      (onlyChanges_advance _ (.inl rfl))

/-! ### The instructions without a flag -/

/-- Settles O14: each is one register write, the sum taken mod 256. -/
theorem immediateLoadAndAdd : Obligations.ImmediateLoadAndAdd :=
  ⟨fun _ hw => decodeWord_ldImm hw, fun _ hw => decodeWord_addImm hw, fun _ _ =>
    ⟨writesRegister_of_writeV (fun _ => rfl) (fun _ => rfl),
      writesRegister_of_writeV (fun _ => rfl) (fun _ => BitVec.toNat_add _ _)⟩⟩

/-- Settles O15: each is one register write. -/
theorem moveAndLogic : Obligations.MoveAndLogic :=
  ⟨fun _ hw => decodeWord_ldReg hw, fun _ hw => decodeWord_orReg hw, fun _ hw => decodeWord_andReg hw,
    fun _ hw => decodeWord_xorReg hw, fun _ _ =>
    ⟨writesRegister_of_writeV (fun _ => rfl) (fun _ => rfl),
      writesRegister_of_writeV (fun _ => rfl) (fun _ => BitVec.toNat_or _ _),
      writesRegister_of_writeV (fun _ => rfl) (fun _ => BitVec.toNat_and _ _),
      writesRegister_of_writeV (fun _ => rfl) (fun _ => BitVec.toNat_xor _ _)⟩⟩

/-- Settles O19: one register write, of the input byte under the mask, which clears the bits that are 0 in it. -/
theorem randomIsMaskedDraw : Obligations.RandomIsMaskedDraw := by
  refine ⟨fun _ hw => decodeWord_rnd hw, fun x nn s => ?_⟩
  have hreg : (s.writeV x (s.outside.rnd &&& nn)).advance.readV x = s.outside.rnd &&& nn := State.readV_writeV_self s x _
  refine ⟨_, rfl, hreg, fun k hk => ?_, rfl, onlyChanges_writeV_advance s x _⟩
  rw [hreg, BitVec.getLsbD_and, hk, Bool.and_false]

/-! ### The instructions with a flag -/

/-- Settles O16: the sum, then the carry, both of the values latched before. -/
theorem addSetsCarry : Obligations.AddSetsCarry :=
  ⟨fun _ hw => decodeWord_addReg hw, fun _ _ =>
    writesResultThenFlag_of_writes (fun _ => rfl) (fun _ => BitVec.toNat_add _ _) (fun _ => decide_eq_true_iff)⟩

/-- Settles O17: the no-borrow flag, then the difference, both of the values latched before. -/
theorem subtractSetsNoBorrow : Obligations.SubtractSetsNoBorrow :=
  ⟨fun _ hw => decodeWord_subReg hw, fun _ hw => decodeWord_subnReg hw, fun _ _ =>
    ⟨writesFlagThenResult_of_writes (fun _ => rfl) (fun _ => toNat_byte_sub _ _) (fun _ => decide_eq_true_iff),
      writesFlagThenResult_of_writes (fun _ => rfl) (fun _ => toNat_byte_sub _ _) (fun _ => decide_eq_true_iff)⟩⟩

/-- Settles O18: the bit shifted out of V[Y], then V[Y] shifted. -/
theorem shiftsMoveVyIntoVx : Obligations.ShiftsMoveVyIntoVx :=
  ⟨fun _ hw => decodeWord_shr hw, fun _ hw => decodeWord_shl hw, fun _ _ =>
    ⟨writesFlagThenResult_of_writes (fun _ => rfl) (fun _ => toNat_byte_shiftRight_one _) (fun _ => getLsbD_zero_iff _),
      writesFlagThenResult_of_writes (fun _ => rfl) (fun _ => toNat_byte_shiftLeft_one _) (fun _ => getLsbD_seven_iff _)⟩⟩

end Sys2Proof.Machine
end

section
/-! The address register and the memory transfers: what they write from I on, and that they stop when that is out of range (R150 to
R156). -/

namespace Sys2Proof.Machine

/-! ### The address register -/

/-- An instruction that is one write of I and the move to npc. -/
theorem setsI_of_write {i : Instr} {s : State} {a : Word} {n : Nat} (hi : exec i s = .next { s with i := a }.advance)
    (ha : a.toNat = n) :
    ∃ t, exec i s = .next t ∧ t.i.toNat = n ∧ t.pc = s.npc ∧ OnlyChanges (fun p => p = .pc ∨ p = .i) s t :=
  ⟨_, hi, ha, rfl, (onlyChanges_i s a (.inr rfl)).trans (onlyChanges_advance _ (.inl rfl))⟩

/-- I wraps at 65536 when a register is added to it (R151). -/
theorem toNat_add_zextByte (a : Word) (b : Byte) : (a + zextByte b).toNat = (a.toNat + b.toNat) % 65536 := by
  rw [BitVec.toNat_add, toNat_zextByte]

/-- The address of a digit does not wrap: at most 5 * 255 (R152). -/
theorem toNat_zextByte_mul_five (b : Byte) : (zextByte b * 5).toNat = b.toNat * 5 := by
  have hfive : (5 : Word).toNat = 5 := rfl
  rw [BitVec.toNat_mul, toNat_zextByte, hfive]
  omega

/-- Settles O20: each is one write of I, taken mod 65536 where the sum can exceed it. -/
theorem addressRegisterWrites : Obligations.AddressRegisterWrites :=
  ⟨fun _ hw => decodeWord_ldI hw, fun _ hw => decodeWord_addI hw, fun _ hw => decodeWord_ldF hw, fun nnn x s =>
    ⟨setsI_of_write rfl (toNat_zextAddr nnn), setsI_of_write rfl (toNat_add_zextByte s.i (s.readV x)),
      setsI_of_write rfl (toNat_zextByte_mul_five (s.readV x))⟩⟩

/-! ### The bytes from I on, in range or not -/

/-- An instruction that accesses I to I + k, all of them in range (R156). -/
theorem State.accessing_atI_of_fits {s : State} {k : Nat} (t : State) (h : s.i.toNat + k < 4096) :
    s.accessing (s.effAddr 0) (k + 1) t = .next t :=
  s.accessing_of_fits t (.inr (by rw [State.effAddr]; omega))

/-- An instruction that accesses I to I + k, one of them out of range, stops at the lowest such address (R156, R211). -/
theorem State.accessing_atI_stops {s : State} {k : Nat} (t : State) (h : 4096 ≤ s.i.toNat + k) :
    ∃ u, s.accessing (s.effAddr 0) (k + 1) t = .next u ∧ StoppedBy .memRange (max s.i.toNat 4096) s u := by
  have hi := s.i.isLt
  exact ⟨_, s.accessing_of_exceeds t (by omega) (by rw [State.effAddr]; omega), stoppedBy_fatal s .memRange (by omega)⟩

/-- After a block store from I on, I + k holds the k-th byte. -/
theorem State.read_writeBytes_atI (s : State) {bs : List Byte} {k : Nat} (h : k < bs.length) :
    (s.mem.writeBytes (s.effAddr 0) bs).read (s.effAddr k) = bs[k] := by
  have hk : s.effAddr k - s.effAddr 0 = k := by simp [State.effAddr]
  have hr : s.effAddr 0 ≤ s.effAddr k ∧ s.effAddr k - s.effAddr 0 < bs.length := by
    rw [hk]; exact ⟨Nat.add_le_add_left (Nat.zero_le k) _, h⟩
  rw [Memory.read_writeBytes, dif_pos hr]
  simp only [hk]

/-- A block store of `n` bytes from I on and the move to npc change those bytes and pc alone. -/
theorem onlyChanges_writeBytes_atI_advance (s : State) {bs : List Byte} {n : Nat} (hn : bs.length = n) :
    OnlyChanges (fun p => p = .pc ∨ ∃ k, k < n ∧ p = .mem (s.effAddr k)) s
      { s with mem := s.mem.writeBytes (s.effAddr 0) bs }.advance := by
  refine (onlyChanges_mem s _ fun a ha => ?_).trans (onlyChanges_advance _ (.inl rfl))
  have hout : ¬ (s.effAddr 0 ≤ a ∧ a - s.effAddr 0 < bs.length) := by
    rintro ⟨hle, hlt⟩
    exact ha (.inr ⟨a - s.effAddr 0, hn ▸ hlt, congrArg Part.mem (Nat.add_sub_of_le hle).symm⟩)
  rw [Memory.read_writeBytes, dif_neg hout]

/-! ### The three transfers -/

/-- Each digit as a number (R153). -/
theorem toNat_bcdDigits_getElem (b : Byte) {k : Nat} (h : k < (bcdDigits b).length) :
    (bcdDigits b)[k].toNat = [b.toNat / 100, b.toNat / 10 % 10, b.toNat % 10][k]'h :=
  (List.getElem_map BitVec.toNat (h := by rwa [List.length_map])).symm.trans (List.getElem_of_eq (bcdDigits_toNat b) _)

/-- Settles O21: three bytes stored from I on, the digits in order. -/
theorem bcdStoresDigits : Obligations.BcdStoresDigits := by
  refine ⟨fun _ hw => decodeWord_ldB hw, fun x s => ⟨fun h => ?_, State.accessing_atI_stops _⟩⟩
  have hread (k : Nat) (hk : k < 3) :=
    (congrArg BitVec.toNat (s.read_writeBytes_atI hk)).trans (toNat_bcdDigits_getElem (s.readV x) hk)
  exact ⟨_, State.accessing_atI_of_fits _ h, hread 0 (by decide), hread 1 (by decide), hread 2 (by decide), rfl,
    onlyChanges_writeBytes_atI_advance s rfl⟩

/-- Settles O22: the low registers stored from I on. -/
theorem storeRegistersAtI : Obligations.StoreRegistersAtI := by
  refine ⟨fun _ hw => decodeWord_stRegs hw, fun x s => ⟨fun h => ?_, State.accessing_atI_stops _⟩⟩
  have hframe := onlyChanges_writeBytes_atI_advance s (s.length_lowRegs x)
  exact ⟨_, execStRegs_stores h, fun _ hr => s.read_storeLowRegs hr, rfl,
    hframe.mono fun _ hp => hp.imp_right fun ⟨k, hk, hpk⟩ => ⟨k, Nat.le_of_lt_succ hk, hpk⟩⟩

/-- FX65, all of its addresses in range (R155). -/
theorem execLdRegs_loads {x : Nibble} {s : State} (h : s.i.toNat + x.toNat < 4096) :
    exec (.ldRegs x) s = .next (s.loadLowRegs x).advance :=
  State.accessing_atI_of_fits _ h

/-- Settles O23: the low registers loaded from I on. -/
theorem loadRegistersFromI : Obligations.LoadRegistersFromI := by
  refine ⟨fun _ hw => decodeWord_ldRegs hw, fun x s => ⟨fun h => ?_, State.accessing_atI_stops _⟩⟩
  refine ⟨_, execLdRegs_loads h, fun r hr => ?_, rfl, ?_⟩
  · rw [State.readV_advance, State.readV_loadLowRegs, if_pos hr]
  · exact (onlyChanges_loadLowRegs s x fun r hr => .inr ⟨r, hr, rfl⟩).trans (onlyChanges_advance _ (.inl rfl))

/-- Settles O24: the load reads the addresses the store wrote, since memory and I are the store's. -/
theorem loadAfterStoreRestoresRegisters : Obligations.LoadAfterStoreRestoresRegisters := by
  intro x s h
  refine ⟨_, execStRegs_stores h, fun u hmem hi => ?_⟩
  have hui : u.i = s.i := hi
  refine ⟨_, execLdRegs_loads (by rw [hui]; exact h), fun r => ?_⟩
  rw [State.readV_advance, State.readV_loadLowRegs]
  refine ite_congr rfl (fun hr => ?_) fun _ => rfl
  rw [hmem, State.effAddr, hui]
  exact s.read_storeLowRegs hr

end Sys2Proof.Machine
end

section
/-! The display: the sprite bit of the statements is the bit the draw engine places, so a draw is an exclusive or with it (R171 to
R175). -/

namespace Sys2Proof.Machine

/-! ### Clear screen -/

/-- Settles O26: the cleared frame buffer, then the move to npc. -/
theorem clearScreenTurnsPixelsOff : Obligations.ClearScreenTurnsPixelsOff := by
  refine ⟨fun _ hw => decodeWord_cls hw, fun g s => ⟨_, rfl, FrameBuffer.pixel_clear, rfl, ?_⟩⟩
  have hfb : ∀ px py, ¬ (Part.pixel px py = .pc ∨ ∃ qx qy, Part.pixel px py = .pixel qx qy) →
      FrameBuffer.clear.pixel px py = s.fb.pixel px py :=
    fun px py hp => (hp (.inr ⟨px, py, rfl⟩)).elim
  exact (onlyChanges_fb s _ hfb).trans (onlyChanges_advance _ (.inl rfl))

/-! ### What a draw does to each pixel and to VF -/

/-- The sprite bytes that DXYN draws. -/
def State.spriteBytes (s : State) (y n : Nibble) : List Byte := s.mem.readBytes (s.effAddr 0) (s.drawCount y n)

/-- A byte read from `a` on has a property: it is one of the `n` read, and the memory's byte has it. -/
theorem Memory.any_getElem?_readBytes (m : Memory) (a n k : Nat) (f : Byte → Bool) :
    (m.readBytes a n)[k]?.any f = (decide (k < n) && f (m.read (a + k))) := by
  by_cases hk : k < n
  · have hlen : k < (m.readBytes a n).length := by rwa [m.length_readBytes]
    rw [List.getElem?_eq_getElem hlen, m.readBytes_getElem]
    simp [hk]
  · rw [List.getElem?_eq_none (by rw [m.length_readBytes]; omega)]
    simp [hk]

/-- Where a byte starting in column `x0` has a bit on the screen, and which (R172, R173). -/
theorem getMsbD_spriteRow (b : Byte) (x0 px : Nat) :
    (spriteRow b x0).getMsbD px = (decide (x0 ≤ px ∧ px < x0 + 8 ∧ px < 64) && b.getLsbD (7 - (px - x0))) := by
  have hcols : (px < 64 ∧ x0 ≤ px) ∧ px - x0 < 8 ↔ x0 ≤ px ∧ px < x0 + 8 ∧ px < 64 := by omega
  rw [spriteRow_pixel, BitVec.getMsbD, ← Bool.and_assoc, ← Bool.decide_and, ← Bool.decide_and, decide_eq_decide.2 hcols]

/-- The sprite bit on a pixel is the bit that the engine places there. -/
theorem spriteBit_eq_engine (s : State) (x y n : Nibble) (px py : Nat) :
    spriteBit s x y n px py = (decide (s.drawRow y ≤ py ∧ py < 32) &&
      (s.spriteBytes y n)[py - s.drawRow y]?.any fun b => (spriteRow b (s.drawColumn x)).getMsbD px) := by
  have hwhere : s.drawColumn x ≤ px ∧ px < s.drawColumn x + 8 ∧ px < 64 ∧
        s.drawRow y ≤ py ∧ py < s.drawRow y + n.toNat ∧ py < 32 ↔
      ((s.drawRow y ≤ py ∧ py < 32) ∧ py - s.drawRow y < s.drawCount y n) ∧
        s.drawColumn x ≤ px ∧ px < s.drawColumn x + 8 ∧ px < 64 := by
    rw [State.drawCount, Config.fbHeight]
    omega
  rw [State.spriteBytes, Memory.any_getElem?_readBytes, getMsbD_spriteRow, ← Bool.and_assoc, ← Bool.and_assoc,
    ← Bool.decide_and, ← Bool.decide_and, ← decide_eq_decide.2 hwhere]
  rfl

/-- A draw, pixel by pixel (R172). -/
theorem State.pixel_drawn (s : State) (x y n : Nibble) (px py : Nat) :
    (s.drawn x y n).fb.pixel px py = (s.fb.pixel px py ^^ spriteBit s x y n px py) := by
  rw [spriteBit_eq_engine]
  exact s.fb.pixel_drawRows _ _ _ _ _

/-- The engine reports a collision when a pixel that was on lies under a sprite bit (R174). -/
theorem State.drawRows_collision (s : State) (x y n : Nibble) :
    (s.fb.drawRows (s.drawColumn x) (s.drawRow y) (s.spriteBytes y n)).2 = true ↔
      ∃ px py, s.fb.pixel px py = true ∧ spriteBit s x y n px py = true := by
  rw [FrameBuffer.drawRows_hit]
  refine exists₂_congr fun px py => ?_
  rw [spriteBit_eq_engine, Bool.and_eq_true, decide_eq_true_iff]
  constructor
  · rintro ⟨hle, hon, hbit⟩
    have hscreen : py < 32 := by
      by_contra hpy
      rw [s.fb.pixel_offScreen px py (by omega)] at hon
      exact Bool.false_ne_true hon
    exact ⟨hon, ⟨hle, hscreen⟩, hbit⟩
  · rintro ⟨hon, ⟨hle, -⟩, hbit⟩
    exact ⟨hle, hon, hbit⟩

/-- VF after a draw is the collision (R174). -/
theorem State.readV_vf_drawn (s : State) (x y n : Nibble) :
    (s.drawn x y n).readV vf = flagByte (s.fb.drawRows (s.drawColumn x) (s.drawRow y) (s.spriteBytes y n)).2 :=
  State.readV_writeV_self ..

theorem flagByte_eq_one_iff (c : Bool) : flagByte c = 1 ↔ c = true := by
  cases c <;> decide

/-- A draw writes pc, VF and the pixels under a 1 bit. -/
theorem State.onlyChanges_drawn (s : State) (x y n : Nibble) :
    OnlyChanges (fun p => p = .pc ∨ p = .v vf ∨ ∃ px py, spriteBit s x y n px py = true ∧ p = .pixel px py)
      s (s.drawn x y n) := by
  refine ((onlyChanges_fb s _ fun px py hp => ?_).trans (onlyChanges_writeV _ vf _ (.inr (.inl rfl)))).trans
    (onlyChanges_advance _ (.inl rfl))
  have hoff : spriteBit s x y n px py = false :=
    Bool.eq_false_iff.2 fun hbit => hp (.inr (.inr ⟨px, py, hbit, rfl⟩))
  exact (s.pixel_drawn x y n px py).trans (by rw [hoff, Bool.xor_false])

/-! ### The draw in range and out of range -/

/-- DXYN, the rows drawn all in range (R172). -/
theorem exec_drw_of_fits {x y n : Nibble} {s : State} (h : spriteRows s y n = 0 ∨ s.i.toNat + spriteRows s y n ≤ 4096) :
    exec (.drw x y n) s = .next (s.drawn x y n) :=
  s.accessing_of_fits _ h

/-- DXYN, a row drawn out of range (R172, R211). -/
theorem exec_drw_stops {x y n : Nibble} {s : State} (h0 : 0 < spriteRows s y n) (h : 4096 < s.i.toNat + spriteRows s y n) :
    ∃ t, exec (.drw x y n) s = .next t ∧ StoppedBy .memRange (max s.i.toNat 4096) s t := by
  have hi := s.i.isLt
  exact ⟨_, s.accessing_of_exceeds _ (Nat.ne_of_gt h0) h, stoppedBy_fatal s .memRange (by omega)⟩

/-- Settles O27: the sprite bit on a pixel is the one the engine places there, and the collision flag is the engine's. -/
theorem drawFlipsPixelsUnderSprite : Obligations.DrawFlipsPixelsUnderSprite := by
  refine ⟨fun _ hw => decodeWord_drw hw, fun x y n s => ⟨fun h => ?_, exec_drw_stops⟩⟩
  refine ⟨_, exec_drw_of_fits h, s.pixel_drawn x y n, fun hhit => ?_, fun hmiss => ?_, rfl, s.onlyChanges_drawn x y n⟩
  · rw [State.readV_vf_drawn, flagByte_eq_one_of (s.drawRows_collision x y n) hhit]
  · rw [State.readV_vf_drawn, flagByte_eq_zero_of (s.drawRows_collision x y n)]
    rintro ⟨px, py, hon, hbit⟩
    exact Bool.false_ne_true ((hmiss px py hon).symm.trans hbit)

/-! ### Drawing twice -/

/-- The sprite bits depend on memory, I, the two coordinates and the height alone. -/
theorem spriteBit_congr {s u : State} {x y x' y' : Nibble} (hmem : u.mem = s.mem) (hi : u.i = s.i)
    (hx : u.readV x' = s.readV x) (hy : u.readV y' = s.readV y) (n : Nibble) (px py : Nat) :
    spriteBit u x' y' n px py = spriteBit s x y n px py := by
  rw [spriteBit, spriteBit, hmem, hi, hx, hy]

/-- Settles O28: the second draw meets the same sprite bits, and an exclusive or undoes itself; a pixel that is on under a 1 bit after
the first draw was off before it. -/
theorem drawingTwiceRestoresPixels : Obligations.DrawingTwiceRestoresPixels := by
  intro x y n s h
  refine ⟨_, exec_drw_of_fits h, fun x' y' u hfb hmem hi hx hy => ?_⟩
  have hbit := spriteBit_congr hmem hi hx hy n
  have hfits : spriteRows u y' n = 0 ∨ u.i.toNat + spriteRows u y' n ≤ 4096 := by
    rw [spriteRows, hi, hy]; exact h
  refine ⟨_, exec_drw_of_fits hfits, FrameBuffer.ext_pixel fun px py => ?_, ?_⟩
  · rw [State.pixel_drawn, hbit, hfb, State.pixel_drawn, Bool.xor_assoc, Bool.xor_self, Bool.xor_false]
  · rw [State.readV_vf_drawn, flagByte_eq_one_iff, State.drawRows_collision, hfb]
    refine exists₂_congr fun px py => ?_
    rw [hbit, State.pixel_drawn]
    cases s.fb.pixel px py <;> cases spriteBit s x y n px py <;> decide

end Sys2Proof.Machine
end

section
/-! The keypad and the timers: the two key skips, the FX0A that starts a wait, and the access to DT and ST (R190 to R196). -/

namespace Sys2Proof.Machine

/-! ### The key skips -/

/-- Settles O29: both are a `skipIf` on the key bit that the low nibble of V[X] names. -/
theorem skipsOnKeyState : Obligations.SkipsOnKeyState :=
  ⟨fun _ hw => decodeWord_skp hw, fun _ hw => decodeWord_sknp hw, fun _ =>
    ⟨skipsWhen_of_skipIf (fun _ => rfl) (fun s => by rw [keyDown_keyNumber]),
      skipsWhen_of_skipIf (fun _ => rfl) (fun s => by rw [keyDown_keyNumber, Bool.not_eq_true'])⟩⟩

/-! ### The start of a wait -/

/-- FX0A with no key down leaves the state as it is, to be run again (R192). -/
theorem exec_ldVxK_polls {x : Nibble} {s : State} (h : s.lowestKey = none) : exec (.ldVxK x) s = .next s := by
  rw [exec, execLdVxK, h]

theorem onlyChanges_latch (s : State) (k x : Nibble) :
    OnlyChanges (fun p => p = .fsm ∨ p = .wk ∨ p = .wx) s { s with fsm := .awaitRelease, wk := k, wx := x } := by
  refine ⟨fun p hp => ?_, rfl⟩
  cases p with
  | fsm => exact absurd (.inl rfl) hp
  | wk => exact absurd (.inr (.inl rfl)) hp
  | wx => exact absurd (.inr (.inr rfl)) hp
  | _ => rfl

/-- Settles O30: `lowestKey` alone decides between the two outcomes, and it is what its name says. -/
theorem waitForKeyLatchesLowestKey : Obligations.WaitForKeyLatchesLowestKey := by
  refine ⟨fun _ hw => decodeWord_ldVxK hw, fun x s => ⟨fun hup => ?_, fun k hk hlow => ?_⟩⟩
  · exact exec_ldVxK_polls (State.lowestKey_eq_none.2 hup)
  · have hlowest : s.lowestKey = some k := State.lowestKey_eq_some.2 ⟨hk, hlow⟩
    exact ⟨_, exec_ldVxK_latches hlowest, rfl, rfl, rfl, rfl, onlyChanges_latch s k x⟩

/-! ### The timers -/

/-- The output `sound_on` is on exactly while ST is above 0 (R28, R228). -/
theorem State.soundOn_eq_true {s : State} : s.soundOn = true ↔ 0 < s.st.toNat := by
  rw [State.soundOn, decide_eq_true_iff]

/-- Settles O33: one write, of V[X], of DT or of ST, then the move to npc; `sound_on` is read off the ST written. -/
theorem timerAccess : Obligations.TimerAccess := by
  refine ⟨fun _ hw => decodeWord_ldVxDt hw, fun _ hw => decodeWord_ldDtVx hw, fun _ hw => decodeWord_ldStVx hw, fun x =>
    ⟨writesRegister_of_writeV (fun _ => rfl) (fun _ => rfl), fun s => ⟨?_, ?_⟩⟩⟩
  · exact ⟨_, rfl, rfl, rfl, (onlyChanges_dt s _ (.inr rfl)).trans (onlyChanges_advance _ (.inl rfl))⟩
  · exact ⟨_, rfl, rfl, State.soundOn_eq_true, rfl,
      (onlyChanges_st s _ (.inr rfl)).trans (onlyChanges_advance _ (.inl rfl))⟩

end Sys2Proof.Machine
end

section
/-! Fatal conditions: what the events do in a halted core, and which instruction stops a running one, with which cause (R211,
R215). -/

namespace Sys2Proof.Machine

/-! ### The halted core -/

theorem State.tick_halted {s : State} (h : s.halt ≠ .running) : s.tick = s := if_neg h

/-- In a halted core every event but Reset and SetKey leaves the core as it is (R215). -/
theorem step_halted {s : State} (h : s.halt ≠ .running)
    (he : (∃ b, s.nextEvent = .step b) ∨ s.nextEvent = .tick ∨ s.nextEvent = .present) : step s = .next s.takeEvent := by
  obtain ⟨b, he⟩ | he | he := he
  · rw [step_eq, he, State.applyEvent, State.stepEvent_halted (s := s.takeEvent) h]
  · rw [step_eq, he, State.applyEvent, State.tick_halted (s := s.takeEvent) h]
  · rw [step_eq, he, State.applyEvent]

/-- An event that leaves the core as it is keeps `halt`. -/
theorem halt_of_step_eq_takeEvent {s t : State} (h : step s = .next s.takeEvent) (ht : step s = .next t) : t.halt = s.halt := by
  cases h.symm.trans ht
  rfl

/-- SetKey does not write `halt` (R99). -/
theorem halt_of_setKey {s t : State} {k : Nibble} {p : Bool} (he : s.nextEvent = .setKey k p) (ht : step s = .next t) :
    t.halt = s.halt := by
  rw [step_eq, he] at ht
  cases ht
  rfl

/-- Settles O36: Step, Tick and Present find nothing to do, SetKey does what it always does, so `halt` is left to Reset. -/
theorem haltedCoreStaysHalted : Obligations.HaltedCoreStaysHalted := by
  refine fun s h => ⟨step_halted h, setKeyWritesOneBit s, fun t ht hne => ?_⟩
  cases he : s.nextEvent with
  | reset p img => exact ⟨p, img, rfl⟩
  | setKey k p => exact absurd (halt_of_setKey he ht) hne
  | step b => exact absurd (halt_of_step_eq_takeEvent (step_halted h (.inl ⟨b, he⟩)) ht) hne
  | tick => exact absurd (halt_of_step_eq_takeEvent (step_halted h (.inr (.inl he))) ht) hne
  | present => exact absurd (halt_of_step_eq_takeEvent (step_halted h (.inr (.inr he))) ht) hne

/-! ### What an instruction leaves in `halt` -/

/-- What an access to the `n` bytes from I on leaves in `halt`: MEM_RANGE when the last of them is out of range (R211). -/
def State.accessCause (s : State) (n : Nat) : Halt :=
  if 0 < n ∧ 4096 ≤ s.i.toNat + n - 1 then .memRange else .running

/-- What an instruction leaves in the `halt` of a running core: the cause it stops with, or `running` (R211). -/
def fatalCause (s : State) : Instr → Halt
  | .ret _ => if s.sp.val = 0 then .stackUnderflow else .running
  | .call _ => if s.sp.val = 12 then .stackOverflow else .running
  | .drw _ y n => s.accessCause (spriteRows s y n)
  | .ldB _ => s.accessCause 3
  | .stRegs x | .ldRegs x => s.accessCause (x.toNat + 1)
  | _ => .running

theorem State.accessCause_eq_memRange {s : State} {n : Nat} :
    s.accessCause n = .memRange ↔ 0 < n ∧ 4096 ≤ s.i.toNat + n - 1 := by
  simp [State.accessCause]

theorem State.accessCause_ne {s : State} {n : Nat} {c : Halt} (hr : c ≠ .running) (hm : c ≠ .memRange) :
    s.accessCause n ≠ c := by
  unfold State.accessCause
  split
  · exact hm.symm
  · exact hr.symm

theorem State.halt_of_accessing {s t u : State} {n : Nat} (h : s.accessing (s.effAddr 0) n u = .next t)
    (hu : u.halt = .running) : t.halt = s.accessCause n := by
  unfold State.accessCause
  obtain ⟨hfits, ha⟩ | ⟨hn, hout, ha⟩ := s.accessing_cases (s.effAddr 0) n u
  · rw [State.effAddr] at hfits
    rw [if_neg (by omega)]
    cases ha.symm.trans h
    exact hu
  · rw [State.effAddr] at hout
    rw [if_pos (by omega)]
    cases ha.symm.trans h
    rfl

theorem halt_of_execRet {s t : State} {g : Nibble} (h : execRet g s = .next t) (hr : s.halt = .running) :
    t.halt = fatalCause s (.ret g) := by
  cases hsp : s.sp.val with
  | zero =>
    cases (execRet_underflows g hsp).symm.trans h
    simp [fatalCause, hsp]
  | succ d =>
    cases (execRet_pops g hsp (by omega)).symm.trans h
    simp [fatalCause, hsp, hr]

theorem halt_of_execCall {s t : State} {nnn : Addr12} (h : execCall nnn s = .next t) (hr : s.halt = .running) :
    t.halt = fatalCause s (.call nnn) := by
  by_cases hsp : s.sp.val = 12
  · cases (execCall_overflows nnn hsp).symm.trans h
    simp [fatalCause, hsp]
  · cases (execCall_pushes nnn (by omega)).symm.trans h
    simp [fatalCause, hsp, hr]

theorem halt_of_exec_ldVxK {s t : State} {x : Nibble} (h : exec (.ldVxK x) s = .next t) : t.halt = s.halt := by
  cases hk : s.lowestKey with
  | some k => cases (exec_ldVxK_latches hk).symm.trans h; rfl
  | none => cases (exec_ldVxK_polls hk).symm.trans h; rfl

/-- `fatalCause` is what `exec` leaves in `halt`, instruction by instruction. -/
theorem halt_of_exec {i : Instr} {s t : State} (h : exec i s = .next t) (hr : s.halt = .running) : t.halt = fatalCause s i := by
  cases i with
  | ret => exact halt_of_execRet h hr
  | call => exact halt_of_execCall h hr
  | drw | ldB | stRegs | ldRegs => exact State.halt_of_accessing h hr
  | ldVxK => exact (halt_of_exec_ldVxK h).trans hr
  | seImm | sneImm | seReg | sneReg | skp | sknp =>
    cases h
    exact (State.skipIf_halt s _).trans hr
  | _ =>
    cases h
    exact hr

/-! ### Which instruction has which cause -/

theorem fatalCause_eq_stackUnderflow {s : State} {i : Instr} :
    fatalCause s i = .stackUnderflow ↔ ∃ g, i = .ret g ∧ s.sp.val = 0 := by
  cases i with
  | ret g => simp [fatalCause]
  | call nnn => simp [fatalCause, ite_eq_iff]
  | drw | ldB | stRegs | ldRegs => simp [fatalCause, State.accessCause_ne]
  | _ => simp [fatalCause]

theorem fatalCause_eq_stackOverflow {s : State} {i : Instr} :
    fatalCause s i = .stackOverflow ↔ ∃ nnn, i = .call nnn ∧ s.sp.val = 12 := by
  cases i with
  | call nnn => simp [fatalCause]
  | ret g => simp [fatalCause, ite_eq_iff]
  | drw | ldB | stRegs | ldRegs => simp [fatalCause, State.accessCause_ne]
  | _ => simp [fatalCause]

theorem fatalCause_eq_memRange {s : State} {i : Instr} :
    fatalCause s i = .memRange ↔
      (∃ x y n, i = .drw x y n ∧ 0 < spriteRows s y n ∧ 4096 ≤ s.i.toNat + spriteRows s y n - 1) ∨
      (∃ x, i = .ldB x ∧ 4096 ≤ s.i.toNat + 2) ∨
      (∃ x, i = .stRegs x ∧ 4096 ≤ s.i.toNat + x.toNat) ∨
      ∃ x, i = .ldRegs x ∧ 4096 ≤ s.i.toNat + x.toNat := by
  cases i with
  | ret | call => simp [fatalCause, ite_eq_iff]
  | drw | ldB | stRegs | ldRegs => simp [fatalCause, State.accessCause_eq_memRange]
  | _ => simp [fatalCause]

theorem fatalCause_ne_imageTooLarge (s : State) (i : Instr) : fatalCause s i ≠ .imageTooLarge := by
  cases i with
  | ret | call => simp [fatalCause, ite_eq_iff]
  | drw | ldB | stRegs | ldRegs => exact State.accessCause_ne (by decide) (by decide)
  | _ => simp [fatalCause]

/-- Settles O49: the four causes of `fatalCause`, which is what `exec` leaves in `halt`. -/
theorem fatalConditionsExactlyWhen : Obligations.FatalConditionsExactlyWhen := by
  intro i s t hr h
  rw [halt_of_exec h hr]
  exact ⟨fatalCause_eq_stackUnderflow, fatalCause_eq_stackOverflow, fatalCause_eq_memRange, fatalCause_ne_imageTooLarge s i⟩

end Sys2Proof.Machine
end

section
/-! Reset: every field of the core after it, whatever the state before, and the first instruction of the image it loads (R35, R54,
R240). -/

namespace Sys2Proof.Machine

/-! ### What a Reset leaves of the state before: nothing -/

/-- A Reset reads nothing of the core: what it leaves there is fixed by the parameters and the image (R240, R241). -/
theorem State.toCoreState_resetEvent (s s' : State) (p : Config.Params) (img : List Byte) :
    (s.resetEvent p img).toCoreState = (s'.resetEvent p img).toCoreState := by
  unfold State.resetEvent
  dsimp only
  split <;> rfl

/-- Settles O43: both steps are Resets, which read nothing of the state before. -/
theorem resetForgetsEarlierState : Obligations.ResetForgetsEarlierState :=
  fun s s' p img h h' =>
    ⟨_, _, step_of_reset h, step_of_reset h', s.takeEvent.toCoreState_resetEvent s'.takeEvent p img⟩

/-! ### The image that fits -/

/-- The state with the image over the font at the origin and every other field of the core as a Reset sets it (R240). -/
def State.loaded (s : State) (p : Config.Params) (img : List Byte) : State :=
  { s.cleared p with mem := (fontMemory p.font).writeBytes p.origin.toNat img }

/-- pc is at the origin, its 12 bits widened. -/
theorem State.toNat_pc_loaded (s : State) (p : Config.Params) (img : List Byte) : (s.loaded p img).pc.toNat = p.origin.toNat :=
  BitVec.toNat_setWidth_of_le (by decide)

/-- A step whose event is a Reset with an image that fits loads it (R240). -/
theorem step_of_reset_of_fits {s : State} {p : Config.Params} {img : List Byte} (h : s.nextEvent = .reset p img)
    (hfit : img.length ≤ 4096 - p.origin.toNat) : step s = .next (s.takeEvent.loaded p img) := by
  have hfits : imageFits p img = true := decide_eq_true hfit
  rw [step_of_reset h, State.resetEvent, if_pos hfits]
  rfl

/-- The memory before the image is copied in is zero from the end of the font on (R35). -/
theorem fontMemory_read_above (font : Vector Byte Config.fontLen) {a : Nat} (ha : 80 ≤ a) : (fontMemory font).read a = 0 := by
  have hout : ¬ (0 ≤ a ∧ a - 0 < font.toList.length) := by simp [Config.fontLen]; omega
  rw [fontMemory, Memory.read_writeBytes, dif_neg hout]
  exact State.reset_read_above_font ha

/-- The memory with the image copied in over the font: the image lies above the font, since the origin does (R6, R240). -/
theorem read_writeBytes_fontMemory (p : Config.Params) (img : List Byte) (a : Nat) :
    ((fontMemory p.font).writeBytes p.origin.toNat img).read a =
      if h : a < 80 then p.font[a]
      else if h : p.origin.toNat ≤ a ∧ a - p.origin.toNat < img.length then img[a - p.origin.toNat] else 0 := by
  have ho := p.aboveFont
  rw [Memory.read_writeBytes]
  by_cases ha : a < 80
  · rw [dif_neg (by omega), dif_pos ha]
    exact fontMemory_read p.font ⟨a, ha⟩
  · rw [dif_neg ha, fontMemory_read_above p.font (by omega)]

/-- Settles O41: the memory byte by byte, then every other field as `cleared` sets it. -/
theorem resetLoadsImage : Obligations.ResetLoadsImage := by
  intro s p img he hfit
  refine ⟨_, step_of_reset_of_fits he hfit, fun a _ => read_writeBytes_fontMemory p img a, State.toNat_pc_loaded _ p img, rfl,
    fun k => ?stack, fun r => ?registers, rfl, rfl, rfl, FrameBuffer.pixel_clear, fun k => BitVec.getLsbD_zero, rfl, rfl, rfl, rfl,
    rfl, rfl⟩
  case stack => exact Vector.getElem_replicate k.isLt
  case registers => exact Vector.getElem_replicate r.isLt

/-! ### The first instruction of the image -/

/-- An instruction stored at the head of a block of bytes is fetched again (R53, R54). -/
theorem Memory.readWord_writeBytes_encodeBytes (m : Memory) (a : Nat) (i : Instr) (rest : List Byte) :
    (m.writeBytes a (encodeBytes i ++ rest)).readWord a = encode i := by
  simp [Memory.readWord, Memory.read_writeBytes, encodeBytes, wordOfBytes_highByte_lowByte]

/-- Settles O45: the Reset leaves the core running and READY with pc at the image's first two bytes, both in range. -/
theorem loadedImageRunsFromItsFirstWord : Obligations.LoadedImageRunsFromItsFirstWord := by
  intro s p i rest hi he hfit
  have hpc := s.takeEvent.toNat_pc_loaded p (encodeBytes i ++ rest)
  have hrange : p.origin.toNat ≤ 4094 := by
    simp only [encodeBytes, List.length_append, List.length_cons] at hfit
    omega
  have hword : (s.takeEvent.loaded p (encodeBytes i ++ rest)).mem.readWord p.origin.toNat = encode i :=
    Memory.readWord_writeBytes_encodeBytes _ _ i rest
  refine ⟨_, step_of_reset_of_fits he hfit, fun b hb => ?_⟩
  rw [step_fetched hb rfl rfl (hpc.trans_le hrange), hpc, hword, decodeWord_encode hi]

end Sys2Proof.Machine
end

section
/-! Precision of the fatal conditions: an instruction that stops the core has written nothing else (R103, R213). -/

namespace Sys2Proof.Machine

/-- An instruction stops the core with a cause, and records an address of 16 bits (R210). -/
theorem StopCause.bounds {c : Halt} {a : Nat} (h : StopCause c a) : c ≠ .running ∧ a < 65536 := by
  cases h with
  | overflow | underflow => simp
  | range _ ha => exact ⟨by simp, by omega⟩

/-- Settles O48: `stop` is the one effect that writes `halt` and `err_addr`, and it writes nothing else. -/
theorem instructionsAreAllOrNothing : Obligations.InstructionsAreAllOrNothing := by
  intro i s hr
  obtain ⟨t, ht, he⟩ := exec_effect i s
  refine ⟨t, ht, ?_⟩
  cases he with
  | @stop _ c a hc =>
    obtain ⟨hne, ha⟩ := hc.bounds
    exact .inr ⟨c, a, hne, ha, stoppedBy_fatal s c (by omega)⟩
  | jump | result | resultAndFlag | index | delay | sound | clear | draw | store | load | push | pop | latch | poll =>
    exact .inl ⟨hr, rfl⟩

end Sys2Proof.Machine
end
